-- ==== Sys2Proof/Word.lean ====
section
/-! DEFINITION. The machine's words: a buffer byte, a 16-bit field and a 32-bit register (R7, R9). -/

namespace Sys2Proof

/-- One frame-buffer byte `B[i]` (R10). -/
abbrev Byte := BitVec 8

/-- A 16-bit quantity: a checksum, a length, a port, a window offset (R7). -/
abbrev Half := BitVec 16

/-- A 32-bit host register, command word or bus data word (R7). -/
abbrev Word := BitVec 32

end Sys2Proof
end

