-- ==== Sys2Proof/Syntax.lean ====
section
/-! DEFINITION. The instructions: the seven command words of format C and the six host accesses of
format H, one constructor for each row of spec/opcode_table.json (R90, R91, R96). -/

namespace Sys2Proof

/-- One row of the opcode table each. A command has no operand field: its operands are fixed
registers (R93). A host access carries its 16-bit window offset `A` and, for a write, the 32 bits of
write data `D` as they stand on the bus (R90). -/
inductive Instr where
  /-- `NOP`, OP 0x0 (R193). -/
  | nop
  /-- `CSUM`, OP 0x1 (R114). -/
  | csum
  /-- `PARSE`, OP 0x2 (R150). -/
  | parse
  /-- `SWAP`, OP 0x3 (R171). -/
  | swap
  /-- `HDRCSUM`, OP 0x4 (R118). -/
  | hdrcsum
  /-- `VERIFY`, OP 0x5 (R122). -/
  | verify
  /-- `ECHO`, OP 0x6 (R175). -/
  | echo
  /-- `rd8`: a 1-byte host read (R197). -/
  | rd8 (addr : Half)
  /-- `rd16`: a 2-byte host read (R197). -/
  | rd16 (addr : Half)
  /-- `rd32`: a 4-byte host read (R197). -/
  | rd32 (addr : Half)
  /-- `wr8`: a 1-byte host write (R198). -/
  | wr8 (addr : Half) (data : Word)
  /-- `wr16`: a 2-byte host write (R198). -/
  | wr16 (addr : Half) (data : Word)
  /-- `wr32`: a 4-byte host write (R198). -/
  | wr32 (addr : Half) (data : Word)
  deriving DecidableEq, Repr

/-- What arrives at a decoder: a command word (format C) or a host-access tuple (format H). "A
decoder tells the format by where a value arrives" (R90). -/
inductive Code where
  /-- Format C: the 32-bit word written to CMD. -/
  | command (w : Word)
  /-- Format H: the 51-bit tuple W, SZ, A, D of one bus transaction. -/
  | access (t : BitVec 51)
  deriving DecidableEq, Repr

end Sys2Proof
end

