-- ==== Sys2Proof/WellFormed.lean ====
section
/-! DEFINITION. Which instructions are lines of the host script syntax (R96). The operand types carry
the field widths; what is left to check is the write data of the narrow writes. -/

namespace Sys2Proof

/-- `D` is what the script line of R96 encodes: `zext_32(v[7:0])` for `wr8`, `zext_32(v[15:0])` for
`wr16`. A narrow write with other bits of `D` set is still an access of the bus, and `exec` gives
its meaning: those bits are ignored (R61). -/
def Instr.wellFormed : Instr → Bool
  | .nop => true
  | .csum => true
  | .parse => true
  | .swap => true
  | .hdrcsum => true
  | .verify => true
  | .echo => true
  | .rd8 _ => true
  | .rd16 _ => true
  | .rd32 _ => true
  | .wr8 _ d => decide (d.toNat < 2 ^ 8)
  | .wr16 _ d => decide (d.toNat < 2 ^ 16)
  | .wr32 _ _ => true

end Sys2Proof
end

