-- ==== Sys2Proof/Decode.lean ====
section
/-! DEFINITION. The decoder of command words and host-access tuples, and the encoder (R90–R96).
Both are total; a rejection has a name. -/

namespace Sys2Proof

/-- Why a code stands for no instruction. A rejected command word raises `E_ILLEGAL_CMD` when the
engine performs it (R92, R196); a rejected tuple is a bus error (R95). -/
inductive DecodeReject where
  /-- Format C with `RSV = w[31:4] ≠ 0` (R94). -/
  | reservedBits
  /-- Format C with OP in 0x7–0xF (R91, R94). -/
  | reservedOpcode
  /-- Format H with SZ = 3 (R95). -/
  | illegalSize
  deriving DecidableEq, Repr

/-- `OP`, bits 3:0 of a command word (R90). -/
def opField (w : Word) : BitVec 4 := w.extractLsb' 0 4

/-- `RSV`, bits 31:4 of a command word (R90). -/
def rsvField (w : Word) : BitVec 28 := w.extractLsb' 4 28

/-- `W`, bit 50 of an access tuple: 1 is a write (R90). -/
def writeField (t : BitVec 51) : Bool := t.getLsbD 50

/-- `SZ`, bits 49:48 of an access tuple (R90). -/
def sizeField (t : BitVec 51) : BitVec 2 := t.extractLsb' 48 2

/-- `A`, bits 47:32 of an access tuple (R90). -/
def addrField (t : BitVec 51) : Half := t.extractLsb' 32 16

/-- `D`, bits 31:0 of an access tuple (R90). -/
def dataField (t : BitVec 51) : Word := t.extractLsb' 0 32

/-- The command of each opcode (R91). -/
def commandOf (op : BitVec 4) : Option Instr :=
  match op.toNat with
  | 0x0 => some .nop
  | 0x1 => some .csum
  | 0x2 => some .parse
  | 0x3 => some .swap
  | 0x4 => some .hdrcsum
  | 0x5 => some .verify
  | 0x6 => some .echo
  | _ => none

/-- Decode of a command word (R92): total on all 2^32 words. -/
def decodeCommand (w : Word) : Except DecodeReject Instr :=
  if rsvField w ≠ 0 then .error .reservedBits
  else
    match commandOf (opField w) with
    | some i => .ok i
    | none => .error .reservedOpcode

/-- Decode of a host-access tuple (R90, R96). A read's `D` is not an operand (R197) and is not
looked at (DEDUCED, log entry 8; safe). Whether the offset is legal for the size is the bus's check,
not the decoder's (R216). -/
def decodeAccess (t : BitVec 51) : Except DecodeReject Instr :=
  match writeField t, (sizeField t).toNat with
  | false, 0 => .ok (.rd8 (addrField t))
  | false, 1 => .ok (.rd16 (addrField t))
  | false, 2 => .ok (.rd32 (addrField t))
  | true, 0 => .ok (.wr8 (addrField t) (dataField t))
  | true, 1 => .ok (.wr16 (addrField t) (dataField t))
  | true, 2 => .ok (.wr32 (addrField t) (dataField t))
  | _, _ => .error .illegalSize

/-- The decoder of both formats. -/
def decode : Code → Except DecodeReject Instr
  | .command w => decodeCommand w
  | .access t => decodeAccess t

/-- A format-H tuple from its fields W, SZ, A and D (R90). -/
def accessTuple (w : Bool) (sz : BitVec 2) (a : Half) (d : Word) : BitVec 51 :=
  BitVec.ofBool w ++ sz ++ a ++ d

/-- The code of an instruction, from R91 and R96. -/
def encode : Instr → Code
  | .nop => .command 0x00000000#32
  | .csum => .command 0x00000001#32
  | .parse => .command 0x00000002#32
  | .swap => .command 0x00000003#32
  | .hdrcsum => .command 0x00000004#32
  | .verify => .command 0x00000005#32
  | .echo => .command 0x00000006#32
  | .rd8 a => .access (accessTuple false 0 a 0)
  | .rd16 a => .access (accessTuple false 1 a 0)
  | .rd32 a => .access (accessTuple false 2 a 0)
  | .wr8 a d => .access (accessTuple true 0 a d)
  | .wr16 a d => .access (accessTuple true 1 a d)
  | .wr32 a d => .access (accessTuple true 2 a d)

/-- The code that the bits of an opcode-table row stand for. A row of at most 32 bits is a command
word, a longer one an access tuple of 51 bits (R90); bits beyond the format's width make no code. -/
def codeOfTableWord (nbits w : Nat) : Option Code :=
  if nbits ≤ 32 then
    if w < 2 ^ 32 then some (.command (BitVec.ofNat 32 w)) else none
  else if w < 2 ^ 51 then some (.access (BitVec.ofNat 51 w)) else none

/-- The instruction the decoder reads from an opcode-table row's bits, numbered as the table numbers
them: bit 0 is the least significant bit of the command word or of the tuple. -/
def decodeTableWord (nbits w : Nat) : Option Instr :=
  match codeOfTableWord nbits w with
  | none => none
  | some c =>
    match decode c with
    | .ok i => some i
    | .error _ => none

end Sys2Proof
end

