-- ==== Sys2Proof/Config.lean ====
section
/-! DEFINITION. The implementation parameters of R7 and the values the spec leaves open (R8). -/

namespace Sys2Proof

/-- `ODD_LANE` (R7): the lane in which a trailing odd byte enters the checksum sum. -/
inductive OddLane where
  /-- The low-order byte of the last word: the reference value, the source's literal text (C3). -/
  | low
  /-- The high-order byte of the last word. -/
  | high
  deriving DecidableEq, Repr

/-- The parameters of R7 that a rule reads: the buffer capacity and the lane of an odd byte.
They are fixed for a machine: no step and no reset changes them. (DESIGN CHOICE, log entry 1; safe.) -/
structure Params where
  /-- `BUF_CAP`: the frame buffer's capacity in bytes. -/
  bufCap : Nat
  /-- `ODD_LANE`. -/
  oddLane : OddLane
  deriving DecidableEq, Repr

/-- The legal values of `BUF_CAP` (R7); both values of `ODD_LANE` are legal. -/
abbrev Params.Legal (p : Params) : Prop :=
  2048 ≤ p.bufCap ∧ p.bufCap ≤ 61440 ∧ p.bufCap % 4 = 0

namespace Config

/-- The reference parameters, "the value this spec's UTCE has" (R7). -/
def reference : Params := { bufCap := 2048, oddLane := .low }

/-- `UDP_PROTO`, fixed at 17 (R7, R153). -/
def udpProto : Byte := 17

/-- `INIT_BUF` (R7, R241, I-5): the byte each buffer offset holds after power-on or a hardware
reset. A free value: it has no body, so a claim holds for every initial buffer.
(DESIGN CHOICE, log entry 2; safe.) -/
opaque initBuf : Nat → Byte

/-- `LATENCY` (R7, R72, I-6) of the n-th accepted command, counted in host steps: how many of the
host steps that are enabled while the command is pending come before the engine's step.
Finite (a natural number), unbounded and free: it has no body. (DESIGN CHOICE, log entry 5; safe.) -/
opaque latency : Nat → Nat

/-- `BASE / 64 KiB` (R7, D33). A free value: `BASE` is any 64 KiB-aligned address.
(DEDUCED, log entry 3; safe.) -/
opaque basePage : Nat

/-- `BASE`, the platform address of the block's window (R63). No rule depends on its value (I-7). -/
def base : Nat := 65536 * basePage

/-- The window offset that a platform address selects, if it lies in the 64 KiB window (R63). -/
def windowOffset (platformAddress : Nat) : Option Half :=
  if base ≤ platformAddress ∧ platformAddress < base + 65536 then
    some (BitVec.ofNat 16 (platformAddress - base))
  else none

end Config

end Sys2Proof
end

