-- ==== Sys2Proof/Machine/State.lean ====
section
/-! DEFINITION. The architectural state of UTCE as plain data, its reset value, and the reasons a
step can stop. -/

namespace Sys2Proof.Machine

/-- `STATUS.PARSE_RES` (R27). The engine never produces the codes 6 and 7 (I-9).
(DEDUCED, log entry 11; safe.) -/
inductive ParseRes where
  /-- 0, NONE: no frame command has completed since reset. -/
  | none
  /-- 1, ACCEPT. -/
  | accept
  /-- 2, REJ_SHORT: the frame is shorter than 20 bytes. -/
  | rejShort
  /-- 3, REJ_VERSION: the version is not 4. -/
  | rejVersion
  /-- 4, REJ_PROTO: the protocol is not UDP. -/
  | rejProto
  /-- 5, REJ_HDRLEN: the header length does not fit, or ihl < 5. -/
  | rejHdrlen
  deriving DecidableEq, Repr

/-- `STATUS.ERR_CODE` (R28). The engine never produces the codes 4 to 15 (I-9).
(DEDUCED, log entry 11; safe.) -/
inductive ErrCode where
  /-- 0, E_NONE. -/
  | none
  /-- 1, E_ILLEGAL_CMD. -/
  | illegalCmd
  /-- 2, E_LEN_RANGE. -/
  | lenRange
  /-- 3, E_CSUM_RANGE. -/
  | csumRange
  deriving DecidableEq, Repr

/-- The sixteen host-visible registers by name (R23). -/
inductive RegName where
  | id | ctrl | status | cmd | frameLen | csumOff | csumLen | csumResult | csumSum
  | ipInfo | ipSrc | ipDst | udpPorts | udpInfo | payload | hdrInfo
  deriving DecidableEq, Repr

/-- The stored bits of the register window (R23). What a register's other bits read as is in the
one operation that reads registers: `ID` is constant (R22), `CMD` reads 0 (R30), `STATUS.BUSY` and
`STATUS.IRQ` are derived (R44, R29), and reserved bits read 0 (R24). -/
structure Regs where
  /-- `CTRL.IE_DONE` (R25). -/
  ieDone : Bool
  /-- `CTRL.IE_ERR` (R25). -/
  ieErr : Bool
  /-- `STATUS.DONE` (R26). -/
  done : Bool
  /-- `STATUS.ERR` (R26). -/
  err : Bool
  /-- `STATUS.ERR_CODE` (R26, R28). -/
  errCode : ErrCode
  /-- `STATUS.PARSE_RES` (R26, R27). -/
  parseRes : ParseRes
  /-- `STATUS.UDP_SHORT` (R26, R145). -/
  udpShort : Bool
  /-- `STATUS.CSUM_OK` (R26, R122). -/
  csumOk : Bool
  /-- `STATUS.MODIFIED` (R26, R191). -/
  modified : Bool
  /-- `FRAME_LEN.LEN` (R31). -/
  frameLen : Half
  /-- `CSUM_OFF.OFF` (R32). -/
  csumOff : Half
  /-- `CSUM_LEN.N` (R33). -/
  csumLen : Half
  /-- `CSUM_RESULT.VALUE` (R34). -/
  csumResult : Half
  /-- `CSUM_SUM.SUM` (R35). -/
  csumSum : Half
  /-- `IP_INFO` (R36). -/
  ipInfo : Word
  /-- `IP_SRC` (R37). -/
  ipSrc : Word
  /-- `IP_DST` (R38). -/
  ipDst : Word
  /-- `UDP_PORTS` (R39). -/
  udpPorts : Word
  /-- `UDP_INFO` (R40). -/
  udpInfo : Word
  /-- `PAYLOAD` (R41). -/
  payload : Word
  /-- `HDR_INFO` (R42). -/
  hdrInfo : Word
  deriving DecidableEq, Repr

/-- Every register at its reset value (R23, R242). -/
def Regs.reset : Regs where
  ieDone := false
  ieErr := false
  done := false
  err := false
  errCode := .none
  parseRes := .none
  udpShort := false
  csumOk := false
  modified := false
  frameLen := 0
  csumOff := 0
  csumLen := 0
  csumResult := 0
  csumSum := 0
  ipInfo := 0
  ipSrc := 0
  ipDst := 0
  udpPorts := 0
  udpInfo := 0
  payload := 0
  hdrInfo := 0

/-- The frame buffer `B` (R43): the bytes written since the last hardware reset, as (offset, byte)
pairs with strictly rising offsets. An offset that is not listed has no written value: it still
holds its byte of the free parameter `INIT_BUF` (R241). -/
abbrev Memory := List Host.Cell

/-- What the bus outputs `ready`, `err` and `rdata` showed at the last host step (R62). Data lines
the spec gives no value (the read data of a write) are not there. (DESIGN CHOICE, log entry 7; safe.) -/
inductive BusResponse where
  /-- No access has been presented since the hardware reset. -/
  | idle
  /-- The outstanding access is held: `ready` is low (R73). -/
  | held
  /-- A read completed: `ready` = 1, `err` = 0, and `rdata` as given. -/
  | readDone (rdata : Word)
  /-- A write completed: `ready` = 1, `err` = 0. -/
  | writeDone
  /-- A read was a bus error: `ready` = 1, `err` = 1, `rdata` = 0 (R216). -/
  | readError
  /-- A write was a bus error: `ready` = 1, `err` = 1 (R216). -/
  | writeError
  deriving DecidableEq, Repr

/-- One thing the host side presents to the block, in the order it does so (R62, R74, R240).
(DESIGN CHOICE, log entry 6; safe.) -/
inductive HostEvent where
  /-- A bus transaction of the host, as its format-H tuple (R90). -/
  | access (t : BitVec 51)
  /-- A bus transaction of another bus master (R228). It does not wait for a held access that was
  presented before it (R73, R194; DESIGN CHOICE, log entry 14; safe). -/
  | other (t : BitVec 51)
  /-- The host's loop `wait` (R97): reads of STATUS, repeated until BUSY reads 0. -/
  | wait
  /-- The hardware reset input `rst_n` takes this level (R62, R240). -/
  | rstN (level : Bool)
  deriving DecidableEq, Repr

/-- The whole machine. The last three fields are the model's own: what the host presents next, and
the pending command's share of the free `LATENCY` (DESIGN CHOICE, log entries 5 and 6; safe). -/
structure State where
  /-- The implementation parameters (R7). -/
  cfg : Params
  /-- The register window (R23). -/
  regs : Regs
  /-- `PEND`, the pending-command latch (R44). -/
  pend : Option Word
  /-- The frame buffer `B` (R43). -/
  buf : Memory
  /-- The level of the `rst_n` input (R62, R240). -/
  rstN : Bool
  /-- The bus outputs of the last host step (R62). -/
  bus : BusResponse
  /-- What the host presents from now on, in order; the head is the outstanding access (R62). -/
  host : List HostEvent
  /-- Host steps that may still come before the pending command's engine step (R72). -/
  delay : Nat
  /-- How many commands have been accepted: the argument of the next free latency. -/
  issued : Nat
  deriving DecidableEq, Repr

/-- The block after power-on or a hardware reset (R240–R242), with the reference parameters and with
nothing presented by the host yet. -/
def State.reset : State where
  cfg := Config.reference
  regs := Regs.reset
  pend := none
  buf := []
  rstN := true
  bus := .idle
  host := []
  delay := 0
  issued := 0

/-- Reasons the machine stops with a fault: none. "UTCE has no fatal, halted or locked-up state" and
no error stops the engine (R221); a `CmdError` and a `BusError` are both taken, as next states
(DEDUCED, log entry 20; safe). -/
inductive Fault where
  deriving DecidableEq, Repr

/-- Reasons a step has no meaning. -/
inductive Refusal where
  /-- Raised by an arm of `exec` whose instruction has no meaning yet. Safe. No arm does so now. -/
  | notModelled (mnemonic : String)
  /-- Raised by the step, when the host presents an access while `rst_n` = 0: "such an access has no
  defined response, and a model does not admit it" (R240, I-8). Safe: the model stops where the
  spec says nothing. -/
  | accessInReset
  deriving DecidableEq, Repr

end Sys2Proof.Machine
end

