-- ==== Sys2Proof/Machine/Flags.lean ====
section
/-! DEFINITION. The flags: the numeric codes of STATUS, its derived bits, the CTRL and STATUS words a
host reads, and how a command computes each flag it writes (R25–R29, R145, R122). -/

namespace Sys2Proof.Machine

/-- The numeric value of `STATUS.PARSE_RES` (R27). -/
def ParseRes.code : ParseRes → BitVec 3
  | .none => 0
  | .accept => 1
  | .rejShort => 2
  | .rejVersion => 3
  | .rejProto => 4
  | .rejHdrlen => 5

/-- The numeric value of `STATUS.ERR_CODE` (R28). -/
def ErrCode.code : ErrCode → BitVec 4
  | .none => 0
  | .illegalCmd => 1
  | .lenRange => 2
  | .csumRange => 3

/-- `STATUS.BUSY`: 1 exactly when `PEND ≠ none` (R44). -/
def State.busy (s : State) : Bool := s.pend.isSome

/-- `STATUS.IRQ`, which is also the level of the output line `irq` (R29, R222). -/
def State.irq (s : State) : Bool :=
  (s.regs.done && s.regs.ieDone) || (s.regs.err && s.regs.ieErr)

/-- `CTRL` as a host reads it: `SRST` and the reserved bits read 0 (R25). -/
def State.ctrlWord (s : State) : Word :=
  0#30 ++ BitVec.ofBool s.regs.ieErr ++ BitVec.ofBool s.regs.ieDone

/-- `STATUS` as a host reads it, its fields at the bits of R26. -/
def State.statusWord (s : State) : Word :=
  0#18 ++ BitVec.ofBool s.regs.modified ++ BitVec.ofBool s.regs.csumOk
    ++ BitVec.ofBool s.regs.udpShort ++ s.regs.parseRes.code ++ s.regs.errCode.code
    ++ BitVec.ofBool s.irq ++ BitVec.ofBool s.regs.err ++ BitVec.ofBool s.regs.done
    ++ BitVec.ofBool s.busy

/-- `STATUS.UDP_SHORT` of an accepted frame with `rem` bytes after its IPv4 header (R145). -/
def udpShortFlag (rem : Nat) : Bool := decide (rem < 8)

/-- `STATUS.CSUM_OK` of an accepted frame whose header has checksum `value` (R122). -/
def csumOkFlag (value : Half) : Bool := decide (value = 0)

/-! ### The bus outputs (R62, R216) -/

/-- `ready`: the access completed; low while it is held (R62, R73). -/
def BusResponse.ready : BusResponse → Bool
  | .idle => false
  | .held => false
  | .readDone _ => true
  | .writeDone => true
  | .readError => true
  | .writeError => true

/-- `err`, with `ready`: the access was a bus error (R62, R216). -/
def BusResponse.err : BusResponse → Bool
  | .idle => false
  | .held => false
  | .readDone _ => false
  | .writeDone => false
  | .readError => true
  | .writeError => true

/-- `rdata`, where the spec gives the lines a value: the data of a read, and 0 with a bus error on a
read (R197, R216). -/
def BusResponse.rdata : BusResponse → Option Word
  | .idle => none
  | .held => none
  | .readDone d => some d
  | .writeDone => none
  | .readError => some 0
  | .writeError => none

end Sys2Proof.Machine
end

