-- ==== Sys2Proof/Machine/Ops.lean ====
section
/-! DEFINITION. The named operations over the frame buffer and the registers, which every meaning is
made of; the completion of a command, the taking of each exception and the return from one. -/

namespace Sys2Proof.Machine

/-! ### The frame buffer (R10, R11, R43, R60) -/

/-- The byte written at an offset since the last hardware reset, if there is one. -/
def Memory.find? : Memory → Nat → Option Byte
  | [], _ => none
  | (b, w) :: m, a => if b = a then some w else Memory.find? m a

/-- `B[a]` (R10). An offset that nothing has written holds its `INIT_BUF` byte (R241). -/
def Memory.read (m : Memory) (a : Nat) : Byte := (m.find? a).getD (Config.initBuf a)

/-- `B[a] <- v`, in the canonical form. -/
def Memory.write : Memory → Nat → Byte → Memory
  | [], a, v => [(a, v)]
  | (b, w) :: m, a, v =>
    if a < b then (a, v) :: (b, w) :: m
    else if a = b then (a, v) :: m
    else (b, w) :: Memory.write m a v

/-- The canonical form: the listed offsets strictly rise. (An unlisted offset has no written value,
so no entry can equal what an unlisted offset lists.) -/
def Memory.wf : Memory → Bool
  | [] => true
  | [_] => true
  | (a, _) :: (b, v) :: m => decide (a < b) && Memory.wf ((b, v) :: m)

/-- Every listed offset lies below `n`. -/
def Memory.below (n : Nat) (m : Memory) : Bool := m.all fun c => decide (c.1 < n)

/-- `be16(a) = MemRead(a, 2)` (R11): the byte at the lower offset is the high one (R60). -/
def Memory.be16 (m : Memory) (a : Nat) : Half := m.read a ++ m.read (a + 1)

/-- `be32(a) = MemRead(a, 4)` (R11). -/
def Memory.be32 (m : Memory) (a : Nat) : Word := m.be16 a ++ m.be16 (a + 2)

/-- `MemWrite(a, 2, v)` (R11). -/
def Memory.put16 (m : Memory) (a : Nat) (v : Half) : Memory :=
  (m.write a (v.extractLsb' 8 8)).write (a + 1) (v.extractLsb' 0 8)

/-- `MemWrite(a, 4, v)` (R11). -/
def Memory.put32 (m : Memory) (a : Nat) (v : Word) : Memory :=
  (m.put16 a (v.extractLsb' 16 16)).put16 (a + 2) (v.extractLsb' 0 16)

/-! ### A command's end (R191, R212) and its acknowledgement (R195, R220) -/

/-- `complete(m)` (R191). `STATUS.BUSY <- 0` is `PEND <- none` (R44). -/
def State.complete (s : State) (modified : Bool) : State :=
  { s with regs := { s.regs with done := true, modified := modified }, pend := none }

/-- Taking `CmdError(code)`: exactly the writes of R212, and nothing else (R219). -/
def State.cmdError (s : State) (code : ErrCode) : State :=
  { s with
    regs := { s.regs with err := true, errCode := code, done := true, modified := false }
    pend := none }

/-- A write to STATUS (R195): how software acknowledges a completion, and how it returns from an
error (R220). Bits 1 and 2 act; every other bit is ignored. -/
def State.acknowledge (s : State) (d : Word) : State :=
  { s with
    regs :=
      { s.regs with
        done := s.regs.done && !d.getLsbD 1
        err := s.regs.err && !d.getLsbD 2
        errCode := if d.getLsbD 2 then .none else s.regs.errCode } }

/-! ### Command issue and resets (R190, R194, R240) -/

/-- A write to CMD accepted while the engine is idle (R190): the whole word is latched, legal or not.
The command takes the next free latency (R72; DESIGN CHOICE, log entry 5; safe). -/
def State.acceptCommand (s : State) (w : Word) : State :=
  { s with
    pend := some w
    regs := { s.regs with done := false }
    delay := Config.latency s.issued
    issued := s.issued + 1 }

/-- The soft reset (R194): a pending command is cancelled, every register takes its reset value, and
the buffer keeps its bytes. -/
def State.softReset (s : State) : State := { s with regs := Regs.reset, pend := none }

/-- The block after a hardware reset (R240–R242): the buffer holds `INIT_BUF` again. The parameters,
what the host presents next and the count of accepted commands are not the block's to reset.
(DEDUCED, log entry 4; unsafe in that every reset of a run gives the same `INIT_BUF`.) -/
def State.hardwareReset (s : State) : State :=
  { State.reset with cfg := s.cfg, host := s.host, issued := s.issued }

/-- `rst_n` takes a level (R240): the block is in its reset state while the level is 0 and when it
rises. A level 1 that was 1 already changes nothing. -/
def State.setRstN (s : State) (level : Bool) : State :=
  if level && s.rstN then s else { s.hardwareReset with rstN := level }

/-! ### The bus response (R62, R73, R216) -/

/-- The bus outputs show this response; nothing else changes. -/
def State.respond (s : State) (r : BusResponse) : State := { s with bus := r }

/-- Taking a `BusError` (R216): the access completes at once with `err` = 1, a read returns
`rdata` = 0, and nothing in the block changes. -/
def State.busError (s : State) (write : Bool) : State :=
  s.respond (if write then .writeError else .readError)

/-! ### The register window (R23, R24) -/

/-- The register at a window offset; the other offsets below 0x100 are reserved (R23). -/
def regAt (a : Nat) : Option RegName :=
  match a with
  | 0x00 => some .id
  | 0x04 => some .ctrl
  | 0x08 => some .status
  | 0x0C => some .cmd
  | 0x10 => some .frameLen
  | 0x14 => some .csumOff
  | 0x18 => some .csumLen
  | 0x1C => some .csumResult
  | 0x20 => some .csumSum
  | 0x24 => some .ipInfo
  | 0x28 => some .ipSrc
  | 0x2C => some .ipDst
  | 0x30 => some .udpPorts
  | 0x34 => some .udpInfo
  | 0x38 => some .payload
  | 0x3C => some .hdrInfo
  | _ => none

/-- The window offset of a register (R23), which its name stands for in a script (R96). -/
def RegName.offset : RegName → Half
  | .id => 0x00
  | .ctrl => 0x04
  | .status => 0x08
  | .cmd => 0x0C
  | .frameLen => 0x10
  | .csumOff => 0x14
  | .csumLen => 0x18
  | .csumResult => 0x1C
  | .csumSum => 0x20
  | .ipInfo => 0x24
  | .ipSrc => 0x28
  | .ipDst => 0x2C
  | .udpPorts => 0x30
  | .udpInfo => 0x34
  | .payload => 0x38
  | .hdrInfo => 0x3C

/-- The 32 bits a host reads from a register (R22–R42). -/
def State.regValue (s : State) : RegName → Word
  | .id => 0x55544301#32
  | .ctrl => s.ctrlWord
  | .status => s.statusWord
  | .cmd => 0
  | .frameLen => s.regs.frameLen.setWidth 32
  | .csumOff => s.regs.csumOff.setWidth 32
  | .csumLen => s.regs.csumLen.setWidth 32
  | .csumResult => s.regs.csumResult.setWidth 32
  | .csumSum => s.regs.csumSum.setWidth 32
  | .ipInfo => s.regs.ipInfo
  | .ipSrc => s.regs.ipSrc
  | .ipDst => s.regs.ipDst
  | .udpPorts => s.regs.udpPorts
  | .udpInfo => s.regs.udpInfo
  | .payload => s.regs.payload
  | .hdrInfo => s.regs.hdrInfo

/-- A read of the register window: a reserved offset reads 0 (R23, R197). -/
def State.readReg (s : State) (a : Nat) : Word :=
  match regAt a with
  | some r => s.regValue r
  | none => 0

/-- A write to a register (R198). A read-only register ignores it (R24). -/
def State.writeNamed (s : State) (d : Word) : RegName → State
  | .ctrl =>
    if d.getLsbD 31 then s.softReset
    else { s with regs := { s.regs with ieDone := d.getLsbD 0, ieErr := d.getLsbD 1 } }
  | .status => s.acknowledge d
  | .cmd => s.acceptCommand d
  | .frameLen => { s with regs := { s.regs with frameLen := d.extractLsb' 0 16 } }
  | .csumOff => { s with regs := { s.regs with csumOff := d.extractLsb' 0 16 } }
  | .csumLen => { s with regs := { s.regs with csumLen := d.extractLsb' 0 16 } }
  | .id => s
  | .csumResult => s
  | .csumSum => s
  | .ipInfo => s
  | .ipSrc => s
  | .ipDst => s
  | .udpPorts => s
  | .udpInfo => s
  | .payload => s
  | .hdrInfo => s

/-- A write to the register window: a reserved offset ignores it (R23, R198). -/
def State.writeReg (s : State) (a : Nat) (d : Word) : State :=
  match regAt a with
  | some r => s.writeNamed d r
  | none => s

end Sys2Proof.Machine
end

