-- ==== Sys2Proof/Machine/Operands.lean ====
section
/-! DEFINITION. The operands: the fixed registers a command reads (R93), the frame fields (R98–R100)
with their bounds (R143), and the address and lanes of a host access (R61, R63–R67). -/

namespace Sys2Proof.Machine

/-! ### Command operands (R93) -/

/-- `L = FRAME_LEN.LEN`, zero-extended to a natural (R10, R93). -/
def State.frameLength (s : State) : Nat := s.regs.frameLen.toNat

/-- `OFF = CSUM_OFF.OFF` (R93). -/
def State.csumOffset (s : State) : Nat := s.regs.csumOff.toNat

/-- `N = CSUM_LEN.N` (R93). -/
def State.csumCount (s : State) : Nat := s.regs.csumLen.toNat

/-! ### IPv4 header fields (R99, R142), read only when `L ≥ 20` -/

/-- `VERSION = B[0][7:4]`. -/
def ipVersion (m : Memory) : BitVec 4 := (m.read 0).extractLsb' 4 4

/-- `IHL = B[0][3:0]`. -/
def ipIhl (m : Memory) : BitVec 4 := (m.read 0).extractLsb' 0 4

/-- `PROTO = B[9]`. -/
def ipProto (m : Memory) : Byte := m.read 9

/-- `IPCSUM = be16(10)`. -/
def ipChecksum (m : Memory) : Half := m.be16 10

/-- `SRC = be32(12)`. -/
def ipSource (m : Memory) : Word := m.be32 12

/-- `DST = be32(16)`. -/
def ipDestination (m : Memory) : Word := m.be32 16

/-- `h = ihl * 4`, the IPv4 header length in bytes (R15). -/
def headerLength (m : Memory) : Nat := (ipIhl m).toNat * 4

/-! ### UDP header fields (R100, R143): each is 0 unless it lies wholly inside the frame -/

/-- `SPORT`, at `h`. -/
def udpSport (m : Memory) (h rem : Nat) : Half := if 2 ≤ rem then m.be16 h else 0

/-- `DPORT`, at `h + 2`. -/
def udpDport (m : Memory) (h rem : Nat) : Half := if 4 ≤ rem then m.be16 (h + 2) else 0

/-- `ULEN`, at `h + 4`. -/
def udpLength (m : Memory) (h rem : Nat) : Half := if 6 ≤ rem then m.be16 (h + 4) else 0

/-- `UCSUM`, at `h + 6`. -/
def udpChecksum (m : Memory) (h rem : Nat) : Half := if 8 ≤ rem then m.be16 (h + 6) else 0

/-- `UDP_BYTES = min(rem, 8)`. -/
def udpBytes (rem : Nat) : Nat := min rem 8

/-! ### Host-access operands (R61, R63–R67, R73) -/

/-- The size of a host access: `SZ` = 0, 1 or 2 (R90). `SZ` = 3 is no size (R95). -/
inductive AccessSize where
  /-- 1 byte. -/
  | one
  /-- 2 bytes. -/
  | two
  /-- 4 bytes. -/
  | four
  deriving DecidableEq, Repr

/-- The number of bytes an access moves. -/
def AccessSize.bytes : AccessSize → Nat
  | .one => 1
  | .two => 2
  | .four => 4

/-- What a window offset selects (R63). -/
inductive Region where
  /-- 0x0000–0x00FF: the defined and the reserved registers. -/
  | registers
  /-- The frame buffer, at this buffer offset. -/
  | buffer (off : Nat)
  /-- No storage: an access is a bus error. -/
  | unmapped
  deriving DecidableEq, Repr

/-- The address map of R63. -/
def regionOf (p : Params) (a : Nat) : Region :=
  if a < 0x100 then .registers
  else if 0x1000 ≤ a ∧ a < 0x1000 + p.bufCap then .buffer (a - 0x1000)
  else .unmapped

/-- An access that is not a bus error (R64–R67, R216): registers are accessed by aligned words,
the buffer by naturally aligned accesses. -/
def accessLegal (p : Params) (size : AccessSize) (a : Nat) : Bool :=
  match regionOf p a with
  | .registers => decide (size = .four) && decide (a % 4 = 0)
  | .buffer off => decide (off % size.bytes = 0)
  | .unmapped => false

/-- The accesses that are not held while the engine is busy (R73): a read of ID or STATUS and a
write to CTRL. -/
def holdExempt (write : Bool) (a : Nat) : Bool :=
  if write then decide (a = 0x04) else decide (a = 0x00) || decide (a = 0x08)

/-- The access is held (R73): the engine is busy, the access is legal and it is not exempt. -/
def State.holds (s : State) (write : Bool) (size : AccessSize) (a : Nat) : Bool :=
  s.busy && accessLegal s.cfg size a && !holdExempt write a

/-- The read data of a buffer access: bytes on the low data bits, the lower offset in the higher
bits, and 0 on the bits that no byte drives (R61). -/
def bufferRead (m : Memory) (size : AccessSize) (off : Nat) : Word :=
  match size with
  | .one => (m.read off).setWidth 32
  | .two => (m.be16 off).setWidth 32
  | .four => m.be32 off

/-- The buffer after a write access: the data bits that no byte takes are ignored (R61). -/
def bufferWrite (m : Memory) (size : AccessSize) (off : Nat) (d : Word) : Memory :=
  match size with
  | .one => m.write off (d.extractLsb' 0 8)
  | .two => m.put16 off (d.extractLsb' 0 16)
  | .four => m.put32 off d

/-- What a legal read access returns (R197). -/
def State.readAccess (s : State) (size : AccessSize) (a : Nat) : Word :=
  match regionOf s.cfg a with
  | .registers => s.readReg a
  | .buffer off => bufferRead s.buf size off
  | .unmapped => 0

/-- What a legal write access does (R198). -/
def State.writeAccess (s : State) (size : AccessSize) (a : Nat) (d : Word) : State :=
  match regionOf s.cfg a with
  | .registers => s.writeReg a d
  | .buffer off => { s with buf := bufferWrite s.buf size off d }
  | .unmapped => s

end Sys2Proof.Machine
end

