-- ==== Sys2Proof/Machine/HeaderAccessor.lean ====
section
/-! DEFINITION. The header accessor (R140–R154): validation, field extraction, the common form of
every frame command, and PARSE. -/

namespace Sys2Proof.Machine

/-- `VALIDATE()` (R140): the first check that fails decides the result. -/
def validate (m : Memory) (len : Nat) : ParseRes :=
  if len < 20 then .rejShort
  else if ipVersion m ≠ 4 then .rejVersion
  else if ipProto m ≠ Config.udpProto then .rejProto
  else if (ipIhl m).toNat < 5 ∨ (ipIhl m).toNat * 4 > len then .rejHdrlen
  else .accept

/-- The registers of R146 that hold IPv4 fields: written when `L ≥ 20`, else cleared. -/
def extractIp (m : Memory) (len : Nat) (r : Regs) : Regs :=
  if 20 ≤ len then
    { r with
      ipInfo := ipChecksum m ++ ipProto m ++ ipVersion m ++ ipIhl m
      ipSrc := ipSource m
      ipDst := ipDestination m }
  else { r with ipInfo := 0, ipSrc := 0, ipDst := 0 }

/-- The registers of R146 that describe the UDP header and the payload of an accepted frame with an
`h`-byte header and `rem` bytes after it. -/
def extractUdp (m : Memory) (h rem : Nat) (r : Regs) : Regs :=
  { r with
    hdrInfo := 0#20 ++ BitVec.ofNat 4 (udpBytes rem) ++ BitVec.ofNat 8 h
    udpPorts := udpSport m h rem ++ udpDport m h rem
    udpInfo := udpLength m h rem ++ udpChecksum m h rem
    payload := BitVec.ofNat 16 (h + 8) ++ BitVec.ofNat 16 (rem - 8)
    udpShort := udpShortFlag rem }

/-- The same registers of a rejected frame: all 0 (R146). -/
def clearUdp (r : Regs) : Regs :=
  { r with hdrInfo := 0, udpPorts := 0, udpInfo := 0, payload := 0, udpShort := false }

/-- The registers after `VX()` (R146), from the frame of `len` bytes in the buffer. -/
def extract (m : Memory) (len : Nat) (r : Regs) : Regs :=
  let r₁ := extractIp m len r
  let r₂ :=
    match validate m len with
    | .accept => extractUdp m (headerLength m) (len - headerLength m) r₁
    | _ => clearUdp r₁
  { r₂ with parseRes := validate m len }

/-- `VX()` (R146): validation and extraction. It writes registers only. -/
def State.vx (s : State) : State := { s with regs := extract s.buf s.frameLength s.regs }

/-- The common form of every frame command (R118, R122, R150, R171, R175): the length check (R211),
`VX()`, and then what the command does with an accepted or with a rejected frame. `h` and `rem` are
the locals that `VX()` binds. -/
def State.frameCommand (s : State) (accepted : State → (h rem : Nat) → State)
    (rejected : State → State) : State :=
  if s.cfg.bufCap < s.frameLength then s.cmdError .lenRange
  else
    match validate s.buf s.frameLength with
    | .accept => accepted s.vx (headerLength s.buf) (s.frameLength - headerLength s.buf)
    | _ => rejected s.vx

/-- `PARSE` (R150). -/
def execParse (s : State) : Host.Outcome State Fault Refusal :=
  .next (s.frameCommand (fun t _ _ => t.complete false) (fun t => t.complete false))

end Sys2Proof.Machine
end

