-- ==== Sys2Proof/Machine/Checksum.lean ====
section
/-! DEFINITION. The checksum engine (R110–R122): the function CK, and CSUM, HDRCSUM and VERIFY. -/

namespace Sys2Proof.Machine

/-- The first loop of CK (R111): adds `k` big-endian words, the first at offset `a`, to the 32-bit
accumulator. -/
def addWords (m : Memory) : (a k : Nat) → Word → Word
  | _, 0, acc => acc
  | a, k + 1, acc => addWords m (a + 2) k (acc + (m.be16 a).setWidth 32)

/-- The trailing odd byte as CK adds it, in the lane of `ODD_LANE` (R111). -/
def oddByte (lane : OddLane) (t : Byte) : Word :=
  match lane with
  | .low => t.setWidth 32
  | .high => t.setWidth 32 <<< 8

/-- One end-around carry (R111): `acc[15:0] + acc[31:16]`. -/
def foldOnce (acc : Word) : Word :=
  (acc.extractLsb' 0 16).setWidth 32 + (acc.extractLsb' 16 16).setWidth 32

/-- The fold loop of CK (R111), with fuel: `while acc[31:16] != 0`. -/
def foldCarries : Nat → Word → Word
  | 0, acc => acc
  | n + 1, acc => if acc.extractLsb' 16 16 = 0 then acc else foldCarries n (foldOnce acc)

/-- What CK returns: the folded sum and its complement (R111). -/
structure Checksum where
  sum : Half
  value : Half
  deriving DecidableEq, Repr

/-- `CK(a, n)` (R111): the checksum of `B[a .. a+n-1]`. Two folds are enough for every 32-bit
accumulator (R112(b); DEDUCED, log entry 12; safe). -/
def checksum (lane : OddLane) (m : Memory) (a n : Nat) : Checksum :=
  let words := addWords m a (n / 2) 0
  let acc := if n % 2 = 1 then words + oddByte lane (m.read (a + n - 1)) else words
  let sum := (foldCarries 2 acc).extractLsb' 0 16
  { sum := sum, value := ~~~sum }

/-- `CSUM_SUM.SUM <- s; CSUM_RESULT.VALUE <- v` (R34, R35). -/
def State.setChecksum (s : State) (c : Checksum) : State :=
  { s with regs := { s.regs with csumSum := c.sum, csumResult := c.value } }

/-- `CSUM` (R114): the range is checked against `L`, exactly (R115, R213). -/
def execCsum (s : State) : Host.Outcome State Fault Refusal :=
  if s.cfg.bufCap < s.frameLength then .next (s.cmdError .lenRange)
  else if s.frameLength < s.csumOffset + s.csumCount then .next (s.cmdError .csumRange)
  else
    .next
      ((s.setChecksum (checksum s.cfg.oddLane s.buf s.csumOffset s.csumCount)).complete false)

/-- The closed-form recompute of the header checksum (R116, R118, step 4 of R175): zero the field,
sum exactly the `h` header bytes, store the result in the field and in the result registers. -/
def State.rewriteHeaderChecksum (s : State) (h : Nat) : State :=
  let zeroed := s.buf.put16 10 0
  let c := checksum s.cfg.oddLane zeroed 0 h
  { s.setChecksum c with buf := zeroed.put16 10 c.value }

/-- `HDRCSUM` (R118). -/
def execHdrcsum (s : State) : Host.Outcome State Fault Refusal :=
  .next
    (s.frameCommand (fun t h _ => (t.rewriteHeaderChecksum h).complete true)
      (fun t => t.complete false))

/-- `STATUS.CSUM_OK <- b` (R122). -/
def State.setCsumOk (s : State) (b : Bool) : State := { s with regs := { s.regs with csumOk := b } }

/-- The verification pass over the header as it stands (R120, R122). -/
def State.verifyHeader (s : State) (h : Nat) : State :=
  let c := checksum s.cfg.oddLane s.buf 0 h
  (s.setChecksum c).setCsumOk (csumOkFlag c.value)

/-- `VERIFY` (R122). -/
def execVerify (s : State) : Host.Outcome State Fault Refusal :=
  .next
    (s.frameCommand (fun t h _ => (t.verifyHeader h).complete false)
      (fun t => (t.setCsumOk false).complete false))

end Sys2Proof.Machine
end

