-- ==== Sys2Proof/Machine/Control.lean ====
section
/-! DEFINITION. The control family: NOP (R193). -/

namespace Sys2Proof.Machine

/-- `NOP` (R193): it completes, and does nothing else. -/
def execNop (s : State) : Host.Outcome State Fault Refusal := .next (s.complete false)

end Sys2Proof.Machine
end

