-- ==== Sys2Proof/Machine/EchoTransform.lean ====
section
/-! DEFINITION. The echo transform (R170–R178): its four steps, SWAP and ECHO. -/

namespace Sys2Proof.Machine

/-- Step 1 (R170, R171): the IPv4 source and destination addresses change places, each as a unit with
its byte order kept (R173). Both are read before either is written. -/
def swapAddresses (m : Memory) : Memory :=
  let s32 := m.be32 12
  let d32 := m.be32 16
  (m.put32 12 d32).put32 16 s32

/-- Step 2 (R170, R171): the UDP ports change places, if both lie inside the frame (R151). -/
def swapPorts (m : Memory) (h rem : Nat) : Memory :=
  if 4 ≤ rem then
    let sp := m.be16 h
    let dp := m.be16 (h + 2)
    (m.put16 h dp).put16 (h + 2) sp
  else m

/-- Step 3 (R170, R175): the UDP checksum becomes 0, if it lies inside the frame (R151, R177). -/
def clearUdpChecksum (m : Memory) (h rem : Nat) : Memory :=
  if 8 ≤ rem then m.put16 (h + 6) 0 else m

/-- Steps 1 and 2 on the buffer. -/
def State.swapEndpoints (s : State) (h rem : Nat) : State :=
  { s with buf := swapPorts (swapAddresses s.buf) h rem }

/-- Step 3 on the buffer. -/
def State.dropUdpChecksum (s : State) (h rem : Nat) : State :=
  { s with buf := clearUdpChecksum s.buf h rem }

/-- `SWAP` (R171): steps 1 and 2. -/
def execSwap (s : State) : Host.Outcome State Fault Refusal :=
  .next
    (s.frameCommand (fun t h rem => (t.swapEndpoints h rem).complete true)
      (fun t => t.complete false))

/-- `ECHO` (R175): steps 1 to 4. -/
def execEcho (s : State) : Host.Outcome State Fault Refusal :=
  .next
    (s.frameCommand
      (fun t h rem =>
        (((t.swapEndpoints h rem).dropUdpChecksum h rem).rewriteHeaderChecksum h).complete true)
      (fun t => t.complete false))

end Sys2Proof.Machine
end

