-- ==== Sys2Proof/Machine/HostAccess.lean ====
section
/-! DEFINITION. The host accesses (R197, R198): one read and one write operation, and the six sizes of
the opcode table. -/

namespace Sys2Proof.Machine

/-- A host read (R197). The bus-error check comes before the hold (R67); a held access leaves `ready`
low and is still outstanding (R73). No state but the bus outputs changes (R70). -/
def State.hostRead (s : State) (size : AccessSize) (a : Nat) : State :=
  if accessLegal s.cfg size a = false then s.busError false
  else if s.holds false size a then s.respond .held
  else s.respond (.readDone (s.readAccess size a))

/-- A host write (R198), with the same checks in the same order. -/
def State.hostWrite (s : State) (size : AccessSize) (a : Nat) (d : Word) : State :=
  if accessLegal s.cfg size a = false then s.busError true
  else if s.holds true size a then s.respond .held
  else (s.writeAccess size a d).respond .writeDone

/-- `rd8` (R197). -/
def execRd8 (addr : Half) (s : State) : Host.Outcome State Fault Refusal :=
  .next (s.hostRead .one addr.toNat)

/-- `rd16` (R197). -/
def execRd16 (addr : Half) (s : State) : Host.Outcome State Fault Refusal :=
  .next (s.hostRead .two addr.toNat)

/-- `rd32` (R197). -/
def execRd32 (addr : Half) (s : State) : Host.Outcome State Fault Refusal :=
  .next (s.hostRead .four addr.toNat)

/-- `wr8` (R198). -/
def execWr8 (addr : Half) (data : Word) (s : State) : Host.Outcome State Fault Refusal :=
  .next (s.hostWrite .one addr.toNat data)

/-- `wr16` (R198). -/
def execWr16 (addr : Half) (data : Word) (s : State) : Host.Outcome State Fault Refusal :=
  .next (s.hostWrite .two addr.toNat data)

/-- `wr32` (R198). -/
def execWr32 (addr : Half) (data : Word) (s : State) : Host.Outcome State Fault Refusal :=
  .next (s.hostWrite .four addr.toNat data)

end Sys2Proof.Machine
end

