-- ==== Sys2Proof/Machine/Dispatch.lean ====
section
/-! DEFINITION. The dispatch of every instruction to its meaning. -/

namespace Sys2Proof.Machine

def exec (i : Instr) (s : State) : Host.Outcome State Fault Refusal :=
  match i with
  -- format C: performed by the engine (R92)
  | .nop => Sys2Proof.Machine.execNop s
  | .csum => Sys2Proof.Machine.execCsum s
  | .parse => Sys2Proof.Machine.execParse s
  | .swap => Sys2Proof.Machine.execSwap s
  | .hdrcsum => Sys2Proof.Machine.execHdrcsum s
  | .verify => Sys2Proof.Machine.execVerify s
  | .echo => Sys2Proof.Machine.execEcho s
  -- format H: performed by the host's bus access (R197, R198)
  | .rd8 addr => Sys2Proof.Machine.execRd8 addr s
  | .rd16 addr => Sys2Proof.Machine.execRd16 addr s
  | .rd32 addr => Sys2Proof.Machine.execRd32 addr s
  | .wr8 addr data => Sys2Proof.Machine.execWr8 addr data s
  | .wr16 addr data => Sys2Proof.Machine.execWr16 addr data s
  | .wr32 addr data => Sys2Proof.Machine.execWr32 addr data s

end Sys2Proof.Machine
end

