-- ==== Sys2Proof/Machine/Agents.lean ====
section
/-! DEFINITION. The two agents (R14) and which of them moves next (R72–R74, R218): the engine's step, the
host's step, and how an instruction is placed where the next step takes it. -/

namespace Sys2Proof.Machine

/-- One turn of the loop `wait` (R97): `rd32 STATUS`. -/
def waitTurn : Instr := .rd32 RegName.status.offset

/-- The access tuple of `waitTurn` (R96). -/
def waitTuple : BitVec 51 := accessTuple false 2 RegName.status.offset 0

/-- The loop `wait` ends on this value of STATUS: bit 0, BUSY, reads 0 (R97). -/
def waitDone (status : Word) : Bool := !status.getLsbD 0

/-- The access that an event has on the bus: the inputs `sel`, `write`, `size`, `addr` and `wdata` are
its presence and its fields W, SZ, A and D (R62, R90). -/
def HostEvent.tuple : HostEvent → Option (BitVec 51)
  | .access t => some t
  | .other t => some t
  | .wait => some waitTuple
  | .rstN _ => none

/-- The access the host has outstanding (R62). -/
def State.outstanding (s : State) : Option (BitVec 51) := s.host.head?.bind HostEvent.tuple

/-- The engine step (R72): it performs the command in `PEND`. A word that is no command raises
`E_ILLEGAL_CMD` (R92, R196). -/
def State.engineStep (s : State) (w : Word) : Host.Outcome State Fault Refusal :=
  match decodeCommand w with
  | .ok i => exec i s
  | .error _ => .next (s.cmdError .illegalCmd)

/-- One bus access (R62). A tuple that is no access (SZ = 3) is a bus error (R95, R216). -/
def State.busAccess (s : State) (t : BitVec 51) : Host.Outcome State Fault Refusal :=
  match decodeAccess t with
  | .ok i => exec i s
  | .error _ => .next (s.busError (writeField t))

/-- The host's next event as the block sees it, taken off the list: a bus access, performed when it is
not held (R62), a turn of `wait`, which goes back onto the list unless BUSY reads 0 (R97), or a level
of `rst_n`. -/
def State.hostStep (s : State) : HostEvent → Host.Outcome State Fault Refusal
  | .rstN level => .next (s.setRstN level)
  | .access t => s.busAccess t
  | .other t => s.busAccess t
  | .wait =>
    (if waitDone s.statusWord then s else { s with host := .wait :: s.host }).busAccess waitTuple

/-- A decoded access is held in this state (R73). A command is no access. -/
def State.holdsInstr (s : State) : Instr → Bool
  | .nop => false
  | .csum => false
  | .parse => false
  | .swap => false
  | .hdrcsum => false
  | .verify => false
  | .echo => false
  | .rd8 a => s.holds false .one a.toNat
  | .rd16 a => s.holds false .two a.toNat
  | .rd32 a => s.holds false .four a.toNat
  | .wr8 a _ => s.holds true .one a.toNat
  | .wr16 a _ => s.holds true .two a.toNat
  | .wr32 a _ => s.holds true .four a.toNat

/-- The host's next event has to wait for the engine (R73). A bus error is never held (R67). -/
def State.eventHeld (s : State) (e : HostEvent) : Bool :=
  match e.tuple with
  | none => false
  | some t =>
    match decodeAccess t with
    | .ok i => s.holdsInstr i
    | .error _ => false

/-- Behind a held access, the access of another master that does not wait for it, with what is then
left behind the held access: so a soft reset reaches the block and lifts the hold (R73, R194). -/
def State.overtaking (s : State) : List HostEvent → Option (BitVec 51 × List HostEvent)
  | .other t :: rest => if s.eventHeld (.other t) then none else some (t, rest)
  | _ => none

/-- The step while `rst_n` = 0 (R240): only a level of `rst_n` is taken. An access is a broken host duty
(R252) and has no meaning (DEDUCED, log entry 13; safe). -/
def State.stepInReset (s : State) : Host.Outcome State Fault Refusal :=
  match s.host with
  | [] => .next s
  | .rstN level :: rest => .next ({ s with host := rest }.setRstN level)
  | .access _ :: _ => .refused .accessInReset
  | .other _ :: _ => .refused .accessInReset
  | .wait :: _ => .refused .accessInReset

/-- The step while no command is pending: the engine has no step (R72), so the host moves; with
nothing presented, the block idles (R230, R243). -/
def State.stepIdle (s : State) : Host.Outcome State Fault Refusal :=
  match s.host with
  | [] => .next s
  | e :: rest => { s with host := rest }.hostStep e

/-- The step while the command `w` is pending. The engine's step is always enabled (R72). An event of
the host is performed before it only if it is not held (R73) and the command's latency has not run
out; each such event takes one from the latency, so the engine's step comes after finitely many.
While the outstanding access is held, the event can be another master's access that is not held. -/
def State.stepBusy (s : State) (w : Word) : Host.Outcome State Fault Refusal :=
  match s.host with
  | [] => s.engineStep w
  | e :: rest =>
    if s.eventHeld e then
      match s.overtaking rest, s.delay with
      | some (t, rest'), n + 1 => { s with host := e :: rest', delay := n }.busAccess t
      | _, _ => (s.respond .held).engineStep w
    else if s.delay = 0 then s.engineStep w
    else { s with host := rest, delay := s.delay - 1 }.hostStep e

/-- One step of the machine: one host step or one whole-command engine step (R74). -/
def State.agentStep (s : State) : Host.Outcome State Fault Refusal :=
  if s.rstN then
    match s.pend with
    | none => s.stepIdle
    | some w => s.stepBusy w
  else s.stepInReset

/-- The state in which the next step performs this code: a command word waits in `PEND` with its
latency run out; a tuple is what the host presents next, to an idle engine. -/
def State.present (s : State) : Code → State
  | .command w => { s with pend := some w, delay := 0, rstN := true }
  | .access t => { s with host := .access t :: s.host, pend := none, rstN := true }

end Sys2Proof.Machine
end

