-- ==== Sys2Proof/Machine/Step.lean ====
section
/-! DEFINITION. The step function, and the placing of one instruction where the step takes its next one. -/

namespace Sys2Proof.Machine

/-- One step of the machine (R74). -/
def step (s : State) : Host.Outcome State Fault Refusal := s.agentStep

/-- The state with the instruction of these opcode-table bits placed where the very next step takes
its instruction: a row of at most 32 bits in `PEND`, a longer one as the outstanding host access.
(DESIGN CHOICE, log entry 6; safe.) -/
def State.withFetchWord (s : State) (nbits w : Nat) : State :=
  if nbits ≤ 32 then s.present (.command (BitVec.ofNat 32 w))
  else s.present (.access (BitVec.ofNat 51 w))

end Sys2Proof.Machine
end

