-- ==== Sys2Proof/Machine/Script.lean ====
section
/-! DEFINITION. The host's script syntax (R96, R97): the lines and pseudo-operations as what they expand
to, and a script as what the host presents. -/

namespace Sys2Proof.Machine

/-- A line of a host script (R96, R97). -/
inductive ScriptLine where
  /-- A basic line: one host access (R96). -/
  | basic (i : Instr)
  /-- `cmd OP`. -/
  | cmd (op : Instr)
  /-- `wait`. -/
  | wait
  /-- `clr`. -/
  | clr
  /-- `srst`. -/
  | srst
  /-- `load buf[a], <bytes>`. -/
  | load (a : Nat) (bytes : List Byte)
  /-- `setlen n`. -/
  | setlen (n : Word)
  deriving DecidableEq, Repr

/-- `offset(buf[a])`: the window offset of a buffer byte (R79, R96). -/
def bufOffset (a : Nat) : Half := BitVec.ofNat 16 (0x1000 + a)

/-- `opcode(OP)`: the command word of a command (R91). A host access has none. -/
def opcode (op : Instr) : Option Word :=
  match encode op with
  | .command w => some w
  | .access _ => none

/-- `cmd OP`: `wr32 CMD, opcode(OP)` (R97). -/
def scriptCmd (op : Instr) : List Instr :=
  match opcode op with
  | some w => [.wr32 RegName.cmd.offset w]
  | none => []

/-- `clr`: a write that clears DONE and ERR (R97). -/
def scriptClr : List Instr := [.wr32 RegName.status.offset 0x00000006]

/-- `srst`: the soft reset (R97). -/
def scriptSrst : List Instr := [.wr32 RegName.ctrl.offset 0x80000000]

/-- `setlen n` (R97). -/
def scriptSetlen (n : Word) : List Instr := [.wr32 RegName.frameLen.offset n]

/-- `load buf[a], <bytes>` (R97): one `wr32` for each group of four bytes, packed big-endian, and a
`wr16` and a `wr8` for a tail of fewer (their order: DESIGN CHOICE, log entry 15; safe). -/
def scriptLoad : (a : Nat) → List Byte → List Instr
  | _, [] => []
  | a, [x] => [.wr8 (bufOffset a) (x.setWidth 32)]
  | a, [x, y] => [.wr16 (bufOffset a) ((x ++ y).setWidth 32)]
  | a, [x, y, z] =>
    [.wr16 (bufOffset a) ((x ++ y).setWidth 32), .wr8 (bufOffset (a + 2)) (z.setWidth 32)]
  | a, x :: y :: z :: w :: rest => .wr32 (bufOffset a) (x ++ y ++ z ++ w) :: scriptLoad (a + 4) rest

/-- What the host presents for one access: its tuple. A command is no access of its own; it is issued
by a write to CMD (`scriptCmd`). -/
def scriptEvent (i : Instr) : List HostEvent :=
  match encode i with
  | .command _ => []
  | .access t => [.access t]

/-- What the host presents for one line. `wait` is the loop that the step repeats; every other line is
the accesses it expands to. -/
def scriptEvents : ScriptLine → List HostEvent
  | .basic i => scriptEvent i
  | .cmd op => (scriptCmd op).flatMap scriptEvent
  | .wait => [.wait]
  | .clr => scriptClr.flatMap scriptEvent
  | .srst => scriptSrst.flatMap scriptEvent
  | .load a bytes => (scriptLoad a bytes).flatMap scriptEvent
  | .setlen n => (scriptSetlen n).flatMap scriptEvent

/-- The state with a script as what the host presents from now on. -/
def State.withScript (s : State) (lines : List ScriptLine) : State :=
  { s with host := lines.flatMap scriptEvents }

end Sys2Proof.Machine
end

