-- ==== Sys2Proof/Safety.lean ====
section
/-! DEFINITION. The terms in which claims are stated: the frame's geometry and sums as plain numbers, the
kinds of command, the bus-error conditions, and the invariants of the machine. They are written from the
rules, apart from the functions the meanings use. -/

namespace Sys2Proof.Safety

open Sys2Proof.Machine

/-! ### Kinds of instruction (R16) -/

/-- The seven commands (R91). -/
def commands : List Instr := [.nop, .csum, .parse, .swap, .hdrcsum, .verify, .echo]

/-- "Any command that reads the buffer" (R16). -/
def bufferCommands : List Instr := [.csum, .parse, .swap, .hdrcsum, .verify, .echo]

/-- "A command that runs frame validation" (R16). -/
def frameCommands : List Instr := [.parse, .swap, .hdrcsum, .verify, .echo]

/-! ### The frame as numbers -/

/-- `ihl`: the low nibble of byte 0 (R15, R99). -/
def ihl (m : Memory) : Nat := (m.read 0).toNat % 16

/-- `version`: the high nibble of byte 0 (R99). -/
def version (m : Memory) : Nat := (m.read 0).toNat / 16

/-- `h = ihl * 4` (R15). -/
def hdr (m : Memory) : Nat := 4 * ihl m

/-- The frame of `len` bytes passes every check of R140. -/
abbrev Accepted (m : Memory) (len : Nat) : Prop :=
  20 ≤ len ∧ version m = 4 ∧ (m.read 9).toNat = 17 ∧ 5 ≤ ihl m ∧ hdr m ≤ len

/-- The big-endian 16-bit number at an offset (R11, R60). -/
def num16 (m : Memory) (a : Nat) : Nat := 256 * (m.read a).toNat + (m.read (a + 1)).toNat

/-- The big-endian 32-bit number at an offset (R11, R60). -/
def num32 (m : Memory) (a : Nat) : Nat := 65536 * num16 m a + num16 m (a + 2)

/-- A UDP field at `h + off`: its number if its two bytes lie inside the `rem` bytes after the
header, else 0 (R143). -/
def udpField (m : Memory) (h rem off : Nat) : Nat := if off + 2 ≤ rem then num16 m (h + off) else 0

/-- The exact sum of the whole words of `B[a .. a+n-1]` (R112). -/
def wordSum (m : Memory) (a n : Nat) : Nat :=
  ((List.range (n / 2)).map fun k => num16 m (a + 2 * k)).sum

/-- The exact sum of everything CK adds over `B[a .. a+n-1]`: the words, and the trailing odd byte in
its lane (R111). -/
def exactSum (lane : OddLane) (m : Memory) (a n : Nat) : Nat :=
  wordSum m a n +
    if n % 2 = 1 then
      match lane with
      | .low => (m.read (a + n - 1)).toNat
      | .high => 256 * (m.read (a + n - 1)).toNat
    else 0

/-- The exact sum of the header words with the checksum field, word 5, taken as 0 (R116). -/
def headerSumWithoutField (m : Memory) (h : Nat) : Nat :=
  ((List.range (h / 2)).map fun k => if k = 5 then 0 else num16 m (2 * k)).sum

/-- The one's-complement sum of an exact sum: "sum = 0 if Σ = 0, and sum = 1 + ((Σ - 1) mod 65535)
otherwise" (R112(c)). -/
def onesSum (total : Nat) : Nat := if total = 0 then 0 else 1 + (total - 1) % 65535

/-! ### The bus (R216) -/

/-- The conditions of R216 under which an access of `n` bytes (1, 2 or 4) at window offset `a` is a bus
error. -/
abbrev BusErrorAt (p : Params) (n a : Nat) : Prop :=
  (0x100 ≤ a ∧ a < 0x1000) ∨ 0x1000 + p.bufCap ≤ a ∨ (a < 0x100 ∧ (n ≠ 4 ∨ a % 4 ≠ 0)) ∨
    (0x1000 ≤ a ∧ a < 0x1000 + p.bufCap ∧ a % n ≠ 0)

/-- The state after a command that raises `CmdError(code)`: the writes of R212 and nothing else. -/
def raised (s : State) (code : ErrCode) : State :=
  { s with
    regs := { s.regs with err := true, errCode := code, done := true, modified := false }
    pend := none }

/-! ### Which agent moves while a command is pending (DESIGN CHOICE, log entries 5, 7 and 14) -/

/-- The outstanding access is held. -/
def headHeld (s : State) : Bool :=
  match s.host with
  | [] => false
  | e :: _ => s.eventHeld e

/-- The engine's step is the next one: nothing is presented, or no latency is left, or the outstanding
access is held and no access of another master that is not held stands directly behind it. -/
def EngineTurn (s : State) : Prop :=
  s.host = [] ∨ s.delay = 0 ∨
    ∃ e rest, s.host = e :: rest ∧ s.eventHeld e = true ∧
      ∀ t more, rest = .other t :: more → s.eventHeld (.other t) = true

/-- What the bus shows at the engine's step: `ready` low if an access is held, else what it showed. -/
def engineBus (s : State) : BusResponse := if headHeld s then .held else s.bus

/-- The event is one bus access with this tuple, of the host or of another master. -/
def Presents (e : HostEvent) (t : BitVec 51) : Prop := e = .access t ∨ e = .other t

/-! ### Invariants -/

/-- The buffer lists bytes of the buffer only (R43), in the canonical form (log entry 2), and the
parameters are legal (R7). -/
structure BufferInv (s : State) : Prop where
  params : s.cfg.Legal
  rising : s.buf.wf = true
  inside : s.buf.below s.cfg.bufCap = true

/-- The STATUS fields fit together. -/
structure StatusInv (s : State) : Prop where
  /-- DONE is cleared when a command is accepted and set when it completes (R190, R246). -/
  busyNotDone : s.pend ≠ none → s.regs.done = false
  /-- ERR and ERR_CODE are set and cleared together (R212, R195). -/
  errHasCode : s.regs.err = false ↔ s.regs.errCode = .none
  /-- Only an accepted frame is modified (R148, R252). -/
  modifiedAccepted : s.regs.modified = true → s.regs.parseRes = .accept
  /-- VALUE = ~SUM after any write of the two (R35); before one, both are 0. -/
  complement : s.regs.csumResult = ~~~s.regs.csumSum ∨
    (s.regs.csumResult = 0 ∧ s.regs.csumSum = 0)
  /-- While `rst_n` = 0 the block is in its reset state. R240 says so of the rise only (DEDUCED, log
  entry 4). -/
  resetHeld : s.rstN = false → s.regs = Regs.reset ∧ s.pend = none

/-- `IP_INFO.IHL` (R36). -/
def regIhl (r : Regs) : Nat := r.ipInfo.toNat % 16
/-- `IP_INFO.VERSION` (R36). -/
def regVersion (r : Regs) : Nat := r.ipInfo.toNat / 16 % 16
/-- `IP_INFO.PROTO` (R36). -/
def regProto (r : Regs) : Nat := r.ipInfo.toNat / 256 % 256
/-- `HDR_INFO.UDP_BYTES` and, if they were not 0, the reserved bits above it (R42). -/
def regUdpBytes (r : Regs) : Nat := r.hdrInfo.toNat / 256

/-- The extracted-field registers fit PARSE_RES and one another (R140–R146). -/
structure FieldsInv (s : State) : Prop where
  /-- No parse has run, or the frame was too short: the IPv4 fields read 0 (R146, R242). -/
  noIp : s.regs.parseRes = .none ∨ s.regs.parseRes = .rejShort →
    s.regs.ipInfo = 0 ∧ s.regs.ipSrc = 0 ∧ s.regs.ipDst = 0
  /-- The check that failed is the first one that does (R140). -/
  rejVersion : s.regs.parseRes = .rejVersion → regVersion s.regs ≠ 4
  rejProto : s.regs.parseRes = .rejProto → regVersion s.regs = 4 ∧ regProto s.regs ≠ 17
  rejHdrlen : s.regs.parseRes = .rejHdrlen → regVersion s.regs = 4 ∧ regProto s.regs = 17
  /-- Not accepted: every UDP and payload field reads 0 (R146). -/
  noUdp : s.regs.parseRes ≠ .accept → s.regs.hdrInfo = 0 ∧ s.regs.udpPorts = 0 ∧
    s.regs.udpInfo = 0 ∧ s.regs.payload = 0 ∧ s.regs.udpShort = false
  /-- Accepted: an IPv4/UDP header of 20 to 60 bytes, and HDR_INFO, PAYLOAD and UDP_SHORT that
  agree with it; bits 31:12 of HDR_INFO read 0 (R42, R143–R145). -/
  accepted : s.regs.parseRes = .accept →
    regVersion s.regs = 4 ∧ regProto s.regs = 17 ∧ 5 ≤ regIhl s.regs ∧
    s.regs.hdrInfo.toNat % 256 = 4 * regIhl s.regs ∧ regUdpBytes s.regs ≤ 8 ∧
    s.regs.udpShort = decide (regUdpBytes s.regs < 8) ∧
    s.regs.payload.toNat / 65536 = 4 * regIhl s.regs + 8 ∧
    (regUdpBytes s.regs < 8 → s.regs.payload.toNat % 65536 = 0 ∧ s.regs.udpInfo.toNat % 65536 = 0) ∧
    (regUdpBytes s.regs < 6 → s.regs.udpInfo.toNat / 65536 = 0) ∧
    (regUdpBytes s.regs < 4 → s.regs.udpPorts.toNat % 65536 = 0) ∧
    (regUdpBytes s.regs < 2 → s.regs.udpPorts.toNat / 65536 = 0)

end Sys2Proof.Safety
end

