-- ==== Sys2Proof/Certificates/Slice0/Obligations.lean ====
section
/-! DEFINITION. The statements about the machine. Each docstring names the rule of spec/ it formalises. -/

open Sys2Proof Sys2Proof.Machine Sys2Proof.Safety

/-! ### Encoding -/

/-- R90, R91, R96: the decoder gives back every instruction from its code, with every offset and every
write data. -/
def Obligations.DecodeInvertsEncode : Prop := ∀ i : Instr, decode (encode i) = .ok i

/-- R91: "the legal command words are exactly 0x00000000 to 0x00000006", each with its command. -/
def Obligations.LegalCommandWords : Prop :=
  ∀ (w : Word) (i : Instr), decodeCommand w = .ok i ↔
    (w = 0x00000000#32 ∧ i = .nop) ∨ (w = 0x00000001#32 ∧ i = .csum) ∨
    (w = 0x00000002#32 ∧ i = .parse) ∨ (w = 0x00000003#32 ∧ i = .swap) ∨
    (w = 0x00000004#32 ∧ i = .hdrcsum) ∨ (w = 0x00000005#32 ∧ i = .verify) ∨
    (w = 0x00000006#32 ∧ i = .echo)

/-- R90, R95, R96, R197: every 51-bit tuple is its four fields, and decodes by W and SZ to the access of its
fields; SZ = 3 is rejected by name. That a read decodes so for every D, where R90 and R96 give reads D = 0,
is the model's choice (DEDUCED from R197, log entry 8). -/
def Obligations.AccessTuplesDecodeByField : Prop :=
  (∀ t : BitVec 51, t = accessTuple (writeField t) (sizeField t) (addrField t) (dataField t)) ∧
  ∀ (a : Half) (d : Word),
    decodeAccess (accessTuple false 0 a d) = .ok (.rd8 a) ∧
    decodeAccess (accessTuple false 1 a d) = .ok (.rd16 a) ∧
    decodeAccess (accessTuple false 2 a d) = .ok (.rd32 a) ∧
    decodeAccess (accessTuple true 0 a d) = .ok (.wr8 a d) ∧
    decodeAccess (accessTuple true 1 a d) = .ok (.wr16 a d) ∧
    decodeAccess (accessTuple true 2 a d) = .ok (.wr32 a d) ∧
    ∀ w, decodeAccess (accessTuple w 3 a d) = .error .illegalSize

/-- R91, R96 (a sanity statement): words written out from the encoding tables decode to the
instructions they stand for. -/
def Obligations.TableWordsDecode : Prop :=
  decodeTableWord 32 0x00000000 = some .nop ∧ decodeTableWord 32 0x00000001 = some .csum ∧
  decodeTableWord 32 0x00000003 = some .swap ∧ decodeTableWord 32 0x00000006 = some .echo ∧
  decodeTableWord 32 0x00000007 = none ∧ decodeTableWord 32 0x00000016 = none ∧
  decodeTableWord 56 0x0100900000000 = some (.rd8 0x1009) ∧
  decodeTableWord 56 0x2000800000000 = some (.rd32 0x0008) ∧
  decodeTableWord 56 0x7100045000020 = none ∧
  decodeTableWord 56 0x6100045000020 = some (.wr32 0x1000 0x45000020)

/-! ### The step and the two agents -/

/-- R72, R92: the engine's step performs the decoded command that is pending. When it is the engine's turn
(nothing is presented, or no latency is left, or the outstanding access is held and no other master's access
goes ahead of it), and that the bus then shows a held access's `ready` low, are the model's choices (log
entries 5, 7 and 14). -/
def Obligations.StepPerformsPendingCommand : Prop :=
  ∀ (s : State) (w : Word) (i : Instr),
    s.rstN = true → s.pend = some w → decode (.command w) = .ok i → EngineTurn s →
    step s = exec i { s with bus := engineBus s }

/-- R62, R73, R74: the host's step performs the decoded access that is presented next, by the host or by
another master, and takes it off what is presented: at once when the engine is idle. While a command is
pending, an access that is not held goes before the engine's step until the latency has run out, of which it
takes one; so does another master's access behind a held one. The latency's count, the list of what is
presented and the overtaking are the model's choices (log entries 5, 6 and 14). -/
def Obligations.StepPerformsHostAccess : Prop :=
  (∀ (s : State) (e : HostEvent) (t : BitVec 51) (rest : List HostEvent) (i : Instr),
    s.rstN = true → Presents e t → s.host = e :: rest → decode (.access t) = .ok i →
    (s.pend = none → step s = exec i { s with host := rest }) ∧
    (∀ w d, s.pend = some w → s.eventHeld e = false → s.delay = d + 1 →
      step s = exec i { s with host := rest, delay := d })) ∧
  ∀ (s : State) (e : HostEvent) (t : BitVec 51) (rest : List HostEvent) (i : Instr) (w : Word) (d : Nat),
    s.rstN = true → s.host = e :: .other t :: rest → decode (.access t) = .ok i →
    s.pend = some w → s.eventHeld e = true → s.eventHeld (.other t) = false → s.delay = d + 1 →
    step s = exec i { s with host := e :: rest, delay := d }

/-- R214, R212, R217: the engine's step raises E_ILLEGAL_CMD for every pending word with RSV ≠ 0 or OP in
0x7..0xF, whatever FRAME_LEN holds; exactly the writes of R212 happen. When it is the engine's turn, and what
the bus shows, are the model's choices (log entries 5, 7 and 14). -/
def Obligations.IllegalCommandWordRaises : Prop :=
  ∀ (s : State) (w : Word),
    s.rstN = true → s.pend = some w → w.toNat / 16 ≠ 0 ∨ 7 ≤ w.toNat % 16 → EngineTurn s →
    step s = .next { raised s .illegalCmd with bus := engineBus s }

/-- R218, R194, R73: both orders of a soft reset and a pending command are admitted. With its latency run out
the command is performed first; before that, the soft reset cancels it unperformed. A soft reset by another
master does so while an access is held, and releases it: the next step performs the access against the reset
state. (The latency's count and the overtaking are the model's choices, log entries 5 and 14.) -/
def Obligations.SoftResetRacesPendingCommand : Prop :=
  (∀ (s : State) (e : HostEvent) (w d : Word) (rest : List HostEvent) (i : Instr),
    s.rstN = true → s.pend = some w → decode (.command w) = .ok i →
    Presents e (accessTuple true 2 0x0004 d) → s.host = e :: rest → d.getLsbD 31 = true →
    (s.delay = 0 → step s = exec i s) ∧
    (∀ n, s.delay = n + 1 → step s = .next
      { s with regs := Regs.reset, pend := none, bus := .writeDone, host := rest, delay := n })) ∧
  ∀ (s : State) (e : HostEvent) (t : BitVec 51) (w d : Word) (rest : List HostEvent) (i j : Instr),
    s.rstN = true → s.pend = some w → decode (.command w) = .ok i → d.getLsbD 31 = true →
    Presents e t → decode (.access t) = .ok j → s.eventHeld e = true →
    s.host = e :: .other (accessTuple true 2 0x0004 d) :: rest →
    (s.delay = 0 → step s = exec i { s with bus := .held }) ∧
    (∀ n, s.delay = n + 1 → ∃ u,
      u = { s with
            regs := Regs.reset, pend := none, bus := .writeDone, host := e :: rest, delay := n } ∧
      step s = .next u ∧ step u = exec j { u with host := rest })

/-- R72, R97, R253: after at most the pending command's latency of steps comes the step that empties PEND: the
engine's step, which performs the command or raises E_ILLEGAL_CMD, or a soft or a hardware reset, which
cancels it. So the loop `wait` ends: a read of STATUS shows BUSY = 0, and no command is pending. (That the
latency counts host steps is the model's choice, log entry 5; how a hardware reset acts, log entry 4.) -/
def Obligations.PendingCommandLeavesPend : Prop :=
  (∀ (s : State) (w : Word), s.rstN = true → s.pend = some w →
    ∃ k t u, k ≤ s.delay ∧ Host.Core.run Sys2Proof.core k s = .next t ∧ t.pend = some w ∧
      step t = .next u ∧ u.pend = none ∧
      ((∃ i, decode (.command w) = .ok i ∧ step t = exec i { t with bus := engineBus t }) ∨
        ((∀ i, decode (.command w) ≠ .ok i) ∧
          u = { raised t .illegalCmd with bus := engineBus t }) ∨
        u = { t with
              regs := Regs.reset, pend := none, bus := .writeDone
              host := u.host, delay := u.delay } ∨
        u = { State.reset with
              cfg := t.cfg, host := u.host, issued := t.issued, rstN := false })) ∧
  ∀ (s : State) (rest : List HostEvent), s.rstN = true → s.host = .wait :: rest →
    ∃ k t, k ≤ s.delay + 2 ∧ Host.Core.run Sys2Proof.core k s = .next t ∧ t.pend = none ∧
      t.host = rest ∧ ∃ v : Word, t.bus = .readDone v ∧ v.getLsbD 0 = false

/-- R72, R230: with no command pending and nothing presented, nothing happens. -/
def Obligations.IdleBlockKeepsItsState : Prop :=
  ∀ s : State, s.rstN = true → s.pend = none → s.host = [] → step s = .next s

/-- R73: while BUSY = 1 every legal access but a read of ID, a read of STATUS and a write to CTRL is held:
`ready` is low and nothing else changes. -/
def Obligations.BusyHoldsAccesses : Prop :=
  ∀ (s : State) (a : Half) (d : Word), s.pend ≠ none →
    (¬BusErrorAt s.cfg 1 a.toNat →
      exec (.rd8 a) s = .next { s with bus := .held } ∧
      exec (.wr8 a d) s = .next { s with bus := .held }) ∧
    (¬BusErrorAt s.cfg 2 a.toNat →
      exec (.rd16 a) s = .next { s with bus := .held } ∧
      exec (.wr16 a d) s = .next { s with bus := .held }) ∧
    (¬BusErrorAt s.cfg 4 a.toNat → a.toNat ≠ 0x00 → a.toNat ≠ 0x08 →
      exec (.rd32 a) s = .next { s with bus := .held }) ∧
    (¬BusErrorAt s.cfg 4 a.toNat → a.toNat ≠ 0x04 →
      exec (.wr32 a d) s = .next { s with bus := .held })

/-- R240, R72: while `rst_n` = 0 the block performs no host access and no engine step; when `rst_n` rises, the
state is the reset state, with the buffer at INIT_BUF. A fall of `rst_n` cancels a pending command whose
latency has not run out. The model's choices: the reset state stands from the fall on, and the parameters,
the rest of what the host presents and the count of accepted commands are not part of the block's reset (log
entries 4, 5); an access in reset is refused (log entry 13). -/
def Obligations.HardwareResetState : Prop :=
  ∀ (s : State) (rest : List HostEvent),
    (s.rstN = false → s.host = [] → step s = .next s) ∧
    (∀ e, s.rstN = false → s.host = e :: rest → (∀ l, e ≠ .rstN l) →
      step s = .refused .accessInReset) ∧
    (s.rstN = false → s.host = .rstN true :: rest →
      step s = .next { State.reset with cfg := s.cfg, host := rest, issued := s.issued }) ∧
    (s.rstN = true → s.pend = none ∨ s.delay ≠ 0 → s.host = .rstN false :: rest →
      step s = .next
        { State.reset with cfg := s.cfg, host := rest, issued := s.issued, rstN := false }) ∧
    ∀ a, State.reset.buf.read a = Config.initBuf a

/-! ### Control -/

/-- R193: NOP sets DONE, clears MODIFIED and BUSY, and changes nothing else, whatever FRAME_LEN holds. -/
def Obligations.NopCompletes : Prop :=
  ∀ s : State, exec .nop s =
    .next { s with regs := { s.regs with done := true, modified := false }, pend := none }

/-- R190: a CMD write while idle latches the whole word, sets BUSY and clears DONE; ERR and ERR_CODE stay.
While busy it is held. (The model's own `delay` and `issued` are left open here.) -/
def Obligations.CommandAcceptance : Prop :=
  ∀ (s : State) (w : Word),
    (s.pend = none → ∃ t, exec (.wr32 0x000C w) s = .next t ∧ t.busy = true ∧
      t = { s with
            regs := { s.regs with done := false }, pend := some w, bus := .writeDone
            delay := t.delay, issued := t.issued }) ∧
    (s.pend ≠ none → exec (.wr32 0x000C w) s = .next { s with bus := .held })

/-- R194, R25: a CTRL write with bit 31 = 1 resets every register and cancels a pending command, busy or
not; the buffer keeps its bytes, and bits 1:0 of the write are ignored. With bit 31 = 0 it stores the two
enables and nothing else. It is never held. -/
def Obligations.CtrlWriteEffect : Prop :=
  ∀ (s : State) (d : Word),
    (d.getLsbD 31 = true → ∃ t, exec (.wr32 0x0004 d) s = .next t ∧
      t = { s with regs := State.reset.regs, pend := none, bus := .writeDone } ∧
      t.regs.ieDone = false ∧ t.regs.ieErr = false ∧ t.irq = false ∧ t.busy = false) ∧
    (d.getLsbD 31 = false → exec (.wr32 0x0004 d) s = .next
      { s with
        regs := { s.regs with ieDone := d.getLsbD 0, ieErr := d.getLsbD 1 }, bus := .writeDone })

/-- R195: a STATUS write clears DONE by bit 1, and ERR with ERR_CODE by bit 2; every other bit is ignored.
While busy it is held. -/
def Obligations.StatusWriteAcknowledges : Prop :=
  ∀ (s : State) (d : Word),
    (s.pend = none → exec (.wr32 0x0008 d) s = .next
      { s with
        regs :=
          { s.regs with
            done := if d.getLsbD 1 then false else s.regs.done
            err := if d.getLsbD 2 then false else s.regs.err
            errCode := if d.getLsbD 2 then .none else s.regs.errCode }
        bus := .writeDone }) ∧
    (s.pend ≠ none → exec (.wr32 0x0008 d) s = .next { s with bus := .held })

/-- R220: ERR is sticky over every command, and after a command ERR_CODE is the code of the error it
raised, or what it was. -/
def Obligations.ErrorIsSticky : Prop :=
  ∀ i ∈ commands, ∀ s : State, ∃ t, exec i s = .next t ∧
    (s.regs.err = true → t.regs.err = true) ∧
    ((∃ c, c ≠ .none ∧ t = raised s c) ∨
      (t.regs.err = s.regs.err ∧ t.regs.errCode = s.regs.errCode))

/-! ### Host accesses -/

/-- R216: a bus error completes at once with `ready` and `err`, never held; a read returns 0; nothing else
changes. A tuple with SZ = 3 is one too: its step takes it off what is presented and, while a command is
pending, takes one from the latency, and changes nothing else (the list and the count are the model's
choices, log entries 5 and 6). -/
def Obligations.BusErrorsChangeNothing : Prop :=
  (∀ (s : State) (a : Half) (d : Word),
    (BusErrorAt s.cfg 1 a.toNat →
      exec (.rd8 a) s = .next { s with bus := .readError } ∧
      exec (.wr8 a d) s = .next { s with bus := .writeError }) ∧
    (BusErrorAt s.cfg 2 a.toNat →
      exec (.rd16 a) s = .next { s with bus := .readError } ∧
      exec (.wr16 a d) s = .next { s with bus := .writeError }) ∧
    (BusErrorAt s.cfg 4 a.toNat →
      exec (.rd32 a) s = .next { s with bus := .readError } ∧
      exec (.wr32 a d) s = .next { s with bus := .writeError })) ∧
  (∀ (s : State) (e : HostEvent) (t : BitVec 51) (rest : List HostEvent),
    s.rstN = true → Presents e t → s.host = e :: rest → sizeField t = 3 →
    s.eventHeld e = false ∧
    (s.pend = none → step s = .next
      { s with host := rest, bus := if writeField t then .writeError else .readError }) ∧
    (∀ w n, s.pend = some w → s.delay = n + 1 → step s = .next
      { s with
        host := rest, delay := n, bus := if writeField t then .writeError else .readError })) ∧
  BusResponse.readError.ready = true ∧ BusResponse.readError.err = true ∧
  BusResponse.readError.rdata = some 0 ∧ BusResponse.writeError.ready = true ∧
  BusResponse.writeError.err = true

/-- R22: ID reads 0x55544301 in every state, busy or not, and a write to it is ignored. -/
def Obligations.IdIsConstant : Prop :=
  ∀ s : State,
    exec (.rd32 0x0000) s = .next { s with bus := .readDone 0x55544301#32 } ∧
    ∀ d, s.pend = none → exec (.wr32 0x0000 d) s = .next { s with bus := .writeDone }

/-- R26, R27, R28, R29, R44: a read of STATUS is never held and returns every field at its bits, with BUSY
and IRQ derived; the `irq` line is the same value. -/
def Obligations.StatusReadLayout : Prop :=
  ∀ s : State, ∃ v : Word, exec (.rd32 0x0008) s = .next { s with bus := .readDone v } ∧
    v.toNat =
      (if s.pend = none then 0 else 1) + 2 * s.regs.done.toNat + 4 * s.regs.err.toNat +
      8 * s.irq.toNat +
      16 * (match s.regs.errCode with
        | .none => 0 | .illegalCmd => 1 | .lenRange => 2 | .csumRange => 3) +
      256 * (match s.regs.parseRes with
        | .none => 0 | .accept => 1 | .rejShort => 2 | .rejVersion => 3 | .rejProto => 4
        | .rejHdrlen => 5) +
      2048 * s.regs.udpShort.toNat + 4096 * s.regs.csumOk.toNat + 8192 * s.regs.modified.toNat

/-- R29: STATUS.IRQ = (DONE & IE_DONE) | (ERR & IE_ERR), and the line `irq` equals it: bit 3 of what a
read of STATUS returns. -/
def Obligations.IrqIsDerived : Prop :=
  ∀ s : State, (s.irq = true ↔ (s.regs.done = true ∧ s.regs.ieDone = true) ∨
      (s.regs.err = true ∧ s.regs.ieErr = true)) ∧
    ∃ v : Word, exec (.rd32 0x0008) s = .next { s with bus := .readDone v } ∧
      v.getLsbD 3 = s.irq

/-- R23–R25, R30–R42, R197: what an idle block returns for each other register and for the reserved
offsets. -/
def Obligations.RegisterReads : Prop :=
  ∀ s : State, s.pend = none →
    exec (.rd32 0x0004) s = .next
      { s with bus := .readDone (BitVec.ofNat 32 (s.regs.ieDone.toNat + 2 * s.regs.ieErr.toNat)) } ∧
    exec (.rd32 0x000C) s = .next { s with bus := .readDone 0 } ∧
    exec (.rd32 0x0010) s = .next { s with bus := .readDone (0#16 ++ s.regs.frameLen) } ∧
    exec (.rd32 0x0014) s = .next { s with bus := .readDone (0#16 ++ s.regs.csumOff) } ∧
    exec (.rd32 0x0018) s = .next { s with bus := .readDone (0#16 ++ s.regs.csumLen) } ∧
    exec (.rd32 0x001C) s = .next { s with bus := .readDone (0#16 ++ s.regs.csumResult) } ∧
    exec (.rd32 0x0020) s = .next { s with bus := .readDone (0#16 ++ s.regs.csumSum) } ∧
    exec (.rd32 0x0024) s = .next { s with bus := .readDone s.regs.ipInfo } ∧
    exec (.rd32 0x0028) s = .next { s with bus := .readDone s.regs.ipSrc } ∧
    exec (.rd32 0x002C) s = .next { s with bus := .readDone s.regs.ipDst } ∧
    exec (.rd32 0x0030) s = .next { s with bus := .readDone s.regs.udpPorts } ∧
    exec (.rd32 0x0034) s = .next { s with bus := .readDone s.regs.udpInfo } ∧
    exec (.rd32 0x0038) s = .next { s with bus := .readDone s.regs.payload } ∧
    exec (.rd32 0x003C) s = .next { s with bus := .readDone s.regs.hdrInfo } ∧
    ∀ a : Half, 0x40 ≤ a.toNat → a.toNat < 0x100 → a.toNat % 4 = 0 →
      exec (.rd32 a) s = .next { s with bus := .readDone 0 }

/-- R31–R33, R198: the three parameter registers take bits 15:0 of the write and drop the others. -/
def Obligations.ParameterRegisterWrites : Prop :=
  ∀ (s : State) (hi lo : Half), s.pend = none →
    exec (.wr32 0x0010 (hi ++ lo)) s =
      .next { s with regs := { s.regs with frameLen := lo }, bus := .writeDone } ∧
    exec (.wr32 0x0014 (hi ++ lo)) s =
      .next { s with regs := { s.regs with csumOff := lo }, bus := .writeDone } ∧
    exec (.wr32 0x0018 (hi ++ lo)) s =
      .next { s with regs := { s.regs with csumLen := lo }, bus := .writeDone }

/-- R24, R198: a write to a read-only register or to a reserved offset completes and changes nothing. -/
def Obligations.ReadOnlyRegistersIgnoreWrites : Prop :=
  ∀ (s : State) (a : Half) (d : Word), s.pend = none → a.toNat < 0x100 → a.toNat % 4 = 0 →
    a.toNat ∉ [0x04, 0x08, 0x0C, 0x10, 0x14, 0x18] →
    exec (.wr32 a d) s = .next { s with bus := .writeDone }

/-- R242: after a hardware reset and after a soft reset every register and reserved offset reads its reset
value, no command is pending and `irq` is 0; the buffer holds INIT_BUF after the first and is
unchanged by the second. -/
def Obligations.ResetValues : Prop :=
  (State.reset.pend = none ∧ ∀ a, State.reset.buf.read a = Config.initBuf a) ∧
  (∀ s : State, ∃ t, exec (.wr32 0x0004 0x80000000) s = .next t ∧ t.pend = none ∧
    t.regs = State.reset.regs ∧ t.buf = s.buf) ∧
  ∀ s : State, s.pend = none → s.regs = State.reset.regs → s.irq = false ∧
    ∀ a : Half, a.toNat < 0x100 → a.toNat % 4 = 0 →
      exec (.rd32 a) s = .next
        { s with bus := .readDone (if a.toNat = 0 then 0x55544301#32 else 0) }

/-- R61, R65, R197: a buffer read returns its bytes big-endian on the low data bits, and 0 on the others;
nothing but the bus outputs changes (R70). -/
def Obligations.BufferReadLanes : Prop :=
  ∀ (s : State) (a : Half) (o : Nat), s.pend = none → a.toNat = 0x1000 + o → o < s.cfg.bufCap →
    (∃ v : Word, exec (.rd8 a) s = .next { s with bus := .readDone v } ∧
      v.toNat = (s.buf.read o).toNat) ∧
    (o % 2 = 0 → ∃ v : Word, exec (.rd16 a) s = .next { s with bus := .readDone v } ∧
      v.toNat = num16 s.buf o) ∧
    (o % 4 = 0 → ∃ v : Word, exec (.rd32 a) s = .next { s with bus := .readDone v } ∧
      v.toNat = num32 s.buf o)

/-- R61, R65, R198: a buffer write stores its bytes big-endian from the low data bits and ignores the
others; every other byte, register and latch is unchanged. Offsets beyond FRAME_LEN are allowed. -/
def Obligations.BufferWriteLanes : Prop :=
  ∀ (s : State) (a : Half) (d : Word) (o : Nat),
    s.pend = none → a.toNat = 0x1000 + o → o < s.cfg.bufCap →
    (∃ t, exec (.wr8 a d) s = .next t ∧ t = { s with buf := t.buf, bus := .writeDone } ∧
      ∀ c, t.buf.read c = if c = o then d.extractLsb' 0 8 else s.buf.read c) ∧
    (o % 2 = 0 → ∃ t, exec (.wr16 a d) s = .next t ∧
      t = { s with buf := t.buf, bus := .writeDone } ∧
      ∀ c, t.buf.read c =
        if c = o then d.extractLsb' 8 8 else if c = o + 1 then d.extractLsb' 0 8
        else s.buf.read c) ∧
    (o % 4 = 0 → ∃ t, exec (.wr32 a d) s = .next t ∧
      t = { s with buf := t.buf, bus := .writeDone } ∧
      ∀ c, t.buf.read c =
        if c = o then d.extractLsb' 24 8 else if c = o + 1 then d.extractLsb' 16 8
        else if c = o + 2 then d.extractLsb' 8 8 else if c = o + 3 then d.extractLsb' 0 8
        else s.buf.read c)

/-- R61, R198: the data bits that no byte takes do not matter, in any state and at any offset. -/
def Obligations.NarrowWritesIgnoreOtherLanes : Prop :=
  ∀ (s : State) (a : Half) (d d' : Word),
    (d.extractLsb' 0 8 = d'.extractLsb' 0 8 → exec (.wr8 a d) s = exec (.wr8 a d') s) ∧
    (d.extractLsb' 0 16 = d'.extractLsb' 0 16 → exec (.wr16 a d) s = exec (.wr16 a d') s)

/-- R61, R74: an aligned 4-byte write to the buffer is read back as it was written: whole, by each of its two
halves, and by each of its four bytes. -/
def Obligations.BufferWriteReadsBack : Prop :=
  ∀ (s : State) (a : Half) (d : Word) (o : Nat),
    s.cfg.Legal → s.pend = none → a.toNat = 0x1000 + o → o < s.cfg.bufCap → o % 4 = 0 →
    ∃ t, exec (.wr32 a d) s = .next t ∧
      exec (.rd32 a) t = .next { t with bus := .readDone d } ∧
      exec (.rd16 a) t = .next { t with bus := .readDone (0#16 ++ d.extractLsb' 16 16) } ∧
      exec (.rd16 (a + 2)) t = .next { t with bus := .readDone (0#16 ++ d.extractLsb' 0 16) } ∧
      exec (.rd8 a) t = .next { t with bus := .readDone (0#24 ++ d.extractLsb' 24 8) } ∧
      exec (.rd8 (a + 1)) t = .next { t with bus := .readDone (0#24 ++ d.extractLsb' 16 8) } ∧
      exec (.rd8 (a + 2)) t = .next { t with bus := .readDone (0#24 ++ d.extractLsb' 8 8) } ∧
      exec (.rd8 (a + 3)) t = .next { t with bus := .readDone (0#24 ++ d.extractLsb' 0 8) }

/-- R61, R37: "a 4-byte read at buffer offset 12 of an IPv4 frame returns the same value as IP_SRC.ADDR
after PARSE". -/
def Obligations.BufferReadEqualsIpSrc : Prop :=
  ∀ s : State, 20 ≤ s.regs.frameLen.toNat → s.regs.frameLen.toNat ≤ s.cfg.bufCap →
    ∃ t, exec .parse s = .next t ∧
      exec (.rd32 0x100C) t = .next { t with bus := .readDone t.regs.ipSrc }

/-- R97: the accesses of `load buf[a], <bytes>`, presented to an idle block, leave exactly those bytes at
`a`, every other byte as it was, and no register changed. -/
def Obligations.ScriptLoadFillsBuffer : Prop :=
  ∀ (s : State) (a : Nat) (bytes : List Byte), s.cfg.Legal → s.rstN = true → s.pend = none →
    a % 4 = 0 → a + bytes.length ≤ s.cfg.bufCap →
    ∃ t, Host.Core.run Sys2Proof.core (scriptLoad a bytes).length
        (s.withScript [.load a bytes]) = .next t ∧
      t = { s with buf := t.buf, bus := t.bus, host := [] } ∧
      ∀ c, t.buf.read c =
        if h : a ≤ c ∧ c - a < bytes.length then bytes[c - a]'h.2 else s.buf.read c

/-! ### Checksum engine -/

/-- R112(c): CK is the one's-complement sum of the exact sum, for every range the engine can be given. -/
def Obligations.ChecksumIsOnesComplementSum : Prop :=
  ∀ (lane : OddLane) (m : Memory) (a n : Nat), n < 65536 →
    (checksum lane m a n).sum.toNat = onesSum (exactSum lane m a n) ∧
    (checksum lane m a n).value.toNat = 65535 - onesSum (exactSum lane m a n)

/-- R112(d): any permutation of whole words leaves CK of an even range unchanged. -/
def Obligations.ChecksumIgnoresWordOrder : Prop :=
  ∀ (lane : OddLane) (m m' : Memory) (a a' k : Nat), k ≤ 30720 →
    ((List.range k).map fun j => num16 m (a + 2 * j)).Perm
      ((List.range k).map fun j => num16 m' (a' + 2 * j)) →
    checksum lane m a (2 * k) = checksum lane m' a' (2 * k)

/-- R112(f): over an even range with the two bytes of every word swapped, the sum is the byte-swapped
sum. -/
def Obligations.ChecksumOfSwappedBytes : Prop :=
  ∀ (lane : OddLane) (m m' : Memory) (a k : Nat), k ≤ 30720 →
    (∀ j < k, m'.read (a + 2 * j) = m.read (a + 2 * j + 1) ∧
      m'.read (a + 2 * j + 1) = m.read (a + 2 * j)) →
    (checksum lane m' a (2 * k)).sum.toNat =
      (checksum lane m a (2 * k)).sum.toNat % 256 * 256 +
        (checksum lane m a (2 * k)).sum.toNat / 256

/-- R114: CSUM over a range inside the frame writes the sum and its complement, DONE, MODIFIED and BUSY,
and nothing else. -/
def Obligations.CsumCompletes : Prop :=
  ∀ s : State, s.regs.frameLen.toNat ≤ s.cfg.bufCap →
    s.regs.csumOff.toNat + s.regs.csumLen.toNat ≤ s.regs.frameLen.toNat →
    ∃ t, exec .csum s = .next t ∧
      t = { s with
            regs :=
              { s.regs with
                csumSum := t.regs.csumSum, csumResult := ~~~t.regs.csumSum
                done := true, modified := false }
            pend := none } ∧
      t.regs.csumSum.toNat =
        onesSum (exactSum s.cfg.oddLane s.buf s.regs.csumOff.toNat s.regs.csumLen.toNat)

/-- R213, R212: CSUM past the frame raises E_CSUM_RANGE, the sum taken exactly. -/
def Obligations.CsumRangeError : Prop :=
  ∀ s : State, s.regs.frameLen.toNat ≤ s.cfg.bufCap →
    s.regs.frameLen.toNat < s.regs.csumOff.toNat + s.regs.csumLen.toNat →
    exec .csum s = .next (raised s .csumRange)

/-- R211, R212: every buffer command raises E_LEN_RANGE when FRAME_LEN is beyond BUF_CAP; NOP never
does. -/
def Obligations.LengthErrorStopsBufferCommands : Prop :=
  ∀ s : State, s.cfg.bufCap < s.regs.frameLen.toNat →
    (∀ i ∈ bufferCommands, exec i s = .next (raised s .lenRange)) ∧
    ∃ t, exec .nop s = .next t ∧ t.regs.err = s.regs.err ∧ t.regs.errCode = s.regs.errCode

/-- R118: an accepted HDRCSUM stores the checksum of the header with its field taken as 0 into bytes 10
and 11 and changes no other byte; its registers are PARSE's, with the sum, its complement and MODIFIED. -/
def Obligations.HdrcsumEffect : Prop :=
  ∀ s : State, s.regs.frameLen.toNat ≤ s.cfg.bufCap → Accepted s.buf s.regs.frameLen.toNat →
    ∃ p t, exec .parse s = .next p ∧ exec .hdrcsum s = .next t ∧
      t = { p with
            regs :=
              { p.regs with
                modified := true, csumSum := t.regs.csumSum, csumResult := ~~~t.regs.csumSum }
            buf := t.buf } ∧
      t.regs.csumSum.toNat = onesSum (headerSumWithoutField s.buf (hdr s.buf)) ∧
      ∀ c, t.buf.read c =
        if c = 10 then t.regs.csumResult.extractLsb' 8 8
        else if c = 11 then t.regs.csumResult.extractLsb' 0 8 else s.buf.read c

/-- R122: an accepted VERIFY sums the header as it stands and reports CSUM_OK; no byte changes, and its
other registers are PARSE's. -/
def Obligations.VerifyEffect : Prop :=
  ∀ s : State, s.regs.frameLen.toNat ≤ s.cfg.bufCap → Accepted s.buf s.regs.frameLen.toNat →
    ∃ p t, exec .parse s = .next p ∧ exec .verify s = .next t ∧
      t = { p with
            regs :=
              { p.regs with
                csumSum := t.regs.csumSum, csumResult := ~~~t.regs.csumSum
                csumOk := decide (t.regs.csumResult = 0) } } ∧
      t.regs.csumSum.toNat = onesSum (wordSum s.buf 0 (hdr s.buf))

/-- R117, R119(a), R176(c): after an accepted HDRCSUM or ECHO, VERIFY finds the folded sum 0xFFFF, the
value 0x0000 and CSUM_OK = 1. -/
def Obligations.StoredHeaderChecksumVerifies : Prop :=
  ∀ s : State, s.regs.frameLen.toNat ≤ s.cfg.bufCap → Accepted s.buf s.regs.frameLen.toNat →
    ∀ i ∈ [Instr.hdrcsum, Instr.echo], ∃ t u, exec i s = .next t ∧ exec .verify t = .next u ∧
      u.regs.csumSum = 0xFFFF#16 ∧ u.regs.csumResult = 0x0000#16 ∧ u.regs.csumOk = true

/-- R119(b), (c): a second HDRCSUM with no change in between stores the same two bytes and the same results;
the stored value is never 0xFFFF. -/
def Obligations.HdrcsumIsIdempotent : Prop :=
  ∀ s : State, s.regs.frameLen.toNat ≤ s.cfg.bufCap → Accepted s.buf s.regs.frameLen.toNat →
    ∃ t u, exec .hdrcsum s = .next t ∧ exec .hdrcsum t = .next u ∧
      (∀ c, u.buf.read c = t.buf.read c) ∧ u.regs.csumSum = t.regs.csumSum ∧
      u.regs.csumResult = t.regs.csumResult ∧ u.regs.modified = true ∧
      num16 t.buf 10 = t.regs.csumResult.toNat ∧ t.regs.csumResult ≠ 0xFFFF#16

/-- R121: an accepted header verifies exactly when its words sum to a multiple of 65535: both
one's-complement zeros in the field do. -/
def Obligations.VerifyAcceptsBothZeros : Prop :=
  ∀ s : State, s.regs.frameLen.toNat ≤ s.cfg.bufCap → Accepted s.buf s.regs.frameLen.toNat →
    ∃ t, exec .verify s = .next t ∧
      (t.regs.csumOk = true ↔ t.regs.csumSum = 0xFFFF#16) ∧
      (t.regs.csumOk = true ↔ wordSum s.buf 0 (hdr s.buf) % 65535 = 0)

/-! ### Header accessor -/

/-- R140: the checks run in order, and the first that fails decides PARSE_RES; a rejection is no error. -/
def Obligations.FirstFailingCheckDecides : Prop :=
  ∀ s : State, s.regs.frameLen.toNat ≤ s.cfg.bufCap →
    ∀ i ∈ frameCommands, ∃ t, exec i s = .next t ∧ t.regs.done = true ∧
      t.regs.err = s.regs.err ∧ t.regs.errCode = s.regs.errCode ∧
      t.regs.parseRes =
        if s.regs.frameLen.toNat < 20 then .rejShort
        else if version s.buf ≠ 4 then .rejVersion
        else if (s.buf.read 9).toNat ≠ 17 then .rejProto
        else if ihl s.buf < 5 ∨ s.regs.frameLen.toNat < hdr s.buf then .rejHdrlen
        else .accept

/-- R142–R146, R150: PARSE of an accepted frame writes every field register with the number the frame
holds, and changes no byte and nothing else. -/
def Obligations.ParseReportsAcceptedFrame : Prop :=
  ∀ s : State, s.regs.frameLen.toNat ≤ s.cfg.bufCap → Accepted s.buf s.regs.frameLen.toNat →
    ∃ t, exec .parse s = .next t ∧
      t = { s with
            regs :=
              { s.regs with
                done := true, modified := false, parseRes := .accept
                udpShort := decide (s.regs.frameLen.toNat - hdr s.buf < 8)
                ipInfo := t.regs.ipInfo, ipSrc := t.regs.ipSrc, ipDst := t.regs.ipDst
                udpPorts := t.regs.udpPorts, udpInfo := t.regs.udpInfo
                payload := t.regs.payload, hdrInfo := t.regs.hdrInfo }
            pend := none } ∧
      t.regs.ipInfo.toNat = 65536 * num16 s.buf 10 + 256 * 17 + 16 * 4 + ihl s.buf ∧
      t.regs.ipSrc.toNat = num32 s.buf 12 ∧ t.regs.ipDst.toNat = num32 s.buf 16 ∧
      t.regs.hdrInfo.toNat = 256 * min (s.regs.frameLen.toNat - hdr s.buf) 8 + hdr s.buf ∧
      t.regs.udpPorts.toNat =
        65536 * udpField s.buf (hdr s.buf) (s.regs.frameLen.toNat - hdr s.buf) 0 +
          udpField s.buf (hdr s.buf) (s.regs.frameLen.toNat - hdr s.buf) 2 ∧
      t.regs.udpInfo.toNat =
        65536 * udpField s.buf (hdr s.buf) (s.regs.frameLen.toNat - hdr s.buf) 4 +
          udpField s.buf (hdr s.buf) (s.regs.frameLen.toNat - hdr s.buf) 6 ∧
      t.regs.payload.toNat =
        65536 * (hdr s.buf + 8) + (s.regs.frameLen.toNat - hdr s.buf - 8)

/-- R146, R150: PARSE of a rejected frame clears the UDP and payload registers, reports the IPv4 fields if
the frame has 20 bytes and clears them if not, and changes nothing else but the status. -/
def Obligations.ParseReportsRejectedFrame : Prop :=
  ∀ s : State, s.regs.frameLen.toNat ≤ s.cfg.bufCap → ¬Accepted s.buf s.regs.frameLen.toNat →
    ∃ t, exec .parse s = .next t ∧
      t = { s with
            regs :=
              { s.regs with
                done := true, modified := false, parseRes := t.regs.parseRes, udpShort := false
                ipInfo := t.regs.ipInfo, ipSrc := t.regs.ipSrc, ipDst := t.regs.ipDst
                udpPorts := 0, udpInfo := 0, payload := 0, hdrInfo := 0 }
            pend := none } ∧
      t.regs.parseRes ≠ .accept ∧ t.regs.parseRes ≠ .none ∧
      (s.regs.frameLen.toNat < 20 →
        t.regs.ipInfo = 0 ∧ t.regs.ipSrc = 0 ∧ t.regs.ipDst = 0) ∧
      (20 ≤ s.regs.frameLen.toNat →
        t.regs.ipInfo.toNat =
          65536 * num16 s.buf 10 + 256 * (s.buf.read 9).toNat + (s.buf.read 0).toNat ∧
        t.regs.ipSrc.toNat = num32 s.buf 12 ∧ t.regs.ipDst.toNat = num32 s.buf 16)

/-- R148: on a rejected frame no frame command writes a byte or a checksum register, and MODIFIED is 0; each
does what PARSE does, and VERIFY also clears CSUM_OK. -/
def Obligations.RejectedFrameIsLeftUnchanged : Prop :=
  ∀ s : State, s.regs.frameLen.toNat ≤ s.cfg.bufCap → ¬Accepted s.buf s.regs.frameLen.toNat →
    ∃ p, exec .parse s = .next p ∧ p.buf = s.buf ∧ p.regs.modified = false ∧
      p.regs.csumSum = s.regs.csumSum ∧ p.regs.csumResult = s.regs.csumResult ∧
      p.regs.csumOk = s.regs.csumOk ∧
      exec .swap s = .next p ∧ exec .hdrcsum s = .next p ∧ exec .echo s = .next p ∧
      exec .verify s = .next { p with regs := { p.regs with csumOk := false } }

/-- R68, R141, R154(b): what a command leaves in the registers and in the frame depends only on the
registers and on the bytes of the frame. -/
def Obligations.CommandsReadOnlyTheFrame : Prop :=
  ∀ i ∈ commands, ∀ s s' : State, s'.cfg = s.cfg → s'.regs = s.regs →
    (∀ c < s.regs.frameLen.toNat, s'.buf.read c = s.buf.read c) →
    ∃ t t', exec i s = .next t ∧ exec i s' = .next t' ∧ t'.regs = t.regs ∧
      ∀ c < s.regs.frameLen.toNat, t'.buf.read c = t.buf.read c

/-- R68, R141: no command writes a byte at or beyond FRAME_LEN. -/
def Obligations.CommandsWriteOnlyInsideFrame : Prop :=
  ∀ i ∈ commands, ∀ s : State, ∃ t, exec i s = .next t ∧
    ∀ c, s.regs.frameLen.toNat ≤ c → t.buf.read c = s.buf.read c

/-- R46, R154(d): no command writes CTRL, FRAME_LEN, CSUM_OFF, CSUM_LEN or ID; each leaves the engine idle
with DONE set, and touches nothing outside the registers, PEND and the buffer. -/
def Obligations.CommandsKeepParameterRegisters : Prop :=
  ∀ i ∈ commands, ∀ s : State, ∃ t, exec i s = .next t ∧
    t = { s with regs := t.regs, buf := t.buf, pend := none } ∧ t.regs.done = true ∧
    t.regs.ieDone = s.regs.ieDone ∧ t.regs.ieErr = s.regs.ieErr ∧
    t.regs.frameLen = s.regs.frameLen ∧ t.regs.csumOff = s.regs.csumOff ∧
    t.regs.csumLen = s.regs.csumLen ∧
    exec (.rd32 0x0000) t = .next { t with bus := .readDone 0x55544301#32 }

/-! ### Echo transform -/

/-- R171, R173: an accepted SWAP exchanges bytes 12–15 with 16–19 and, if both ports lie in the frame, the
two port words, each unit's byte order kept; no other byte changes, and its registers are PARSE's with
MODIFIED. -/
def Obligations.SwapEffect : Prop :=
  ∀ s : State, s.regs.frameLen.toNat ≤ s.cfg.bufCap → Accepted s.buf s.regs.frameLen.toNat →
    ∃ p t, exec .parse s = .next p ∧ exec .swap s = .next t ∧
      t = { p with regs := { p.regs with modified := true }, buf := t.buf } ∧
      ∀ c, t.buf.read c =
        if 12 ≤ c ∧ c < 16 then s.buf.read (c + 4)
        else if 16 ≤ c ∧ c < 20 then s.buf.read (c - 4)
        else if hdr s.buf + 4 ≤ s.regs.frameLen.toNat ∧ hdr s.buf ≤ c ∧ c < hdr s.buf + 2 then
          s.buf.read (c + 2)
        else if hdr s.buf + 4 ≤ s.regs.frameLen.toNat ∧ hdr s.buf + 2 ≤ c ∧ c < hdr s.buf + 4 then
          s.buf.read (c - 2)
        else s.buf.read c

/-- R172(a): two accepted SWAPs restore every byte; the second is accepted. -/
def Obligations.SwapIsAnInvolution : Prop :=
  ∀ s : State, s.regs.frameLen.toNat ≤ s.cfg.bufCap → Accepted s.buf s.regs.frameLen.toNat →
    ∃ t u, exec .swap s = .next t ∧ exec .swap t = .next u ∧ u.regs.parseRes = .accept ∧
      ∀ c, u.buf.read c = s.buf.read c

/-- R172(b): SWAP leaves the header's checksum unchanged: VERIFY reports the same sum, value and CSUM_OK
before and after it. -/
def Obligations.SwapKeepsHeaderChecksum : Prop :=
  ∀ s : State, s.regs.frameLen.toNat ≤ s.cfg.bufCap → Accepted s.buf s.regs.frameLen.toNat →
    ∃ v t w, exec .verify s = .next v ∧ exec .swap s = .next t ∧ exec .verify t = .next w ∧
      w.regs.csumSum = v.regs.csumSum ∧ w.regs.csumResult = v.regs.csumResult ∧
      w.regs.csumOk = v.regs.csumOk

/-- R175, R176: an accepted ECHO swaps as SWAP does, clears the UDP checksum if it lies in the frame, and
stores the header's checksum, recomputed with its field taken as 0; no other byte changes, and its
registers are PARSE's with the sum, its complement and MODIFIED. -/
def Obligations.EchoEffect : Prop :=
  ∀ s : State, s.regs.frameLen.toNat ≤ s.cfg.bufCap → Accepted s.buf s.regs.frameLen.toNat →
    ∃ p v t, exec .parse s = .next p ∧ exec .swap s = .next v ∧ exec .echo s = .next t ∧
      t = { p with
            regs :=
              { p.regs with
                modified := true, csumSum := t.regs.csumSum, csumResult := ~~~t.regs.csumSum }
            buf := t.buf } ∧
      t.regs.csumSum.toNat = onesSum (headerSumWithoutField s.buf (hdr s.buf)) ∧
      ∀ c, t.buf.read c =
        if c = 10 then t.regs.csumResult.extractLsb' 8 8
        else if c = 11 then t.regs.csumResult.extractLsb' 0 8
        else if hdr s.buf + 8 ≤ s.regs.frameLen.toNat ∧
            (c = hdr s.buf + 6 ∨ c = hdr s.buf + 7) then 0
        else v.buf.read c

/-- R176(b), R174: only bytes 10–19, h..h+3 (if rem ≥ 4) and h+6..h+7 (if rem ≥ 8) can differ after an
accepted ECHO, and FRAME_LEN is unchanged. -/
def Obligations.EchoLeavesOtherBytes : Prop :=
  ∀ s : State, s.regs.frameLen.toNat ≤ s.cfg.bufCap → Accepted s.buf s.regs.frameLen.toNat →
    ∃ t, exec .echo s = .next t ∧ t.regs.frameLen = s.regs.frameLen ∧
      (hdr s.buf + 8 ≤ s.regs.frameLen.toNat → num16 t.buf (hdr s.buf + 6) = 0) ∧
      ∀ c, t.buf.read c ≠ s.buf.read c →
        (10 ≤ c ∧ c < 20) ∨
        (hdr s.buf + 4 ≤ s.regs.frameLen.toNat ∧ hdr s.buf ≤ c ∧ c < hdr s.buf + 4) ∨
        (hdr s.buf + 8 ≤ s.regs.frameLen.toNat ∧ hdr s.buf + 6 ≤ c ∧ c < hdr s.buf + 8)

/-- R175 (corner case), R172(b): when the header verified before and its field is not the second zero
0xFFFF (R121), ECHO leaves bytes 10 and 11 as they were. -/
def Obligations.EchoKeepsCorrectChecksum : Prop :=
  ∀ s : State, s.regs.frameLen.toNat ≤ s.cfg.bufCap → Accepted s.buf s.regs.frameLen.toNat →
    wordSum s.buf 0 (hdr s.buf) % 65535 = 0 → num16 s.buf 10 ≠ 0xFFFF →
    ∃ t, exec .echo s = .next t ∧ t.buf.read 10 = s.buf.read 10 ∧ t.buf.read 11 = s.buf.read 11

/-- R178: two accepted ECHOs leave the bytes that an ECHO and a SWAP leave. -/
def Obligations.EchoTwiceIsEchoThenSwap : Prop :=
  ∀ s : State, s.regs.frameLen.toNat ≤ s.cfg.bufCap → Accepted s.buf s.regs.frameLen.toNat →
    ∃ t u v, exec .echo s = .next t ∧ exec .echo t = .next u ∧ exec .swap t = .next v ∧
      ∀ c, u.buf.read c = v.buf.read c

/-! ### Invariants -/

/-- R7, R43: every step keeps every written byte inside BUF_CAP and the parameters legal. The strictly rising
list of written bytes (log entry 2) and parameters that no step changes (log entry 1) are the model's choices. -/
def Obligations.StepKeepsBufferForm : Prop :=
  ∀ s t : State, BufferInv s → step s = .next t → BufferInv t ∧ t.cfg = s.cfg

/-- R35, R148, R190, R195, R212: every step keeps the STATUS fields and the two checksum registers fitting
together. That the reset state holds while `rst_n` = 0, and not only when it rises (R240), is the model's
choice (DEDUCED, log entry 4). -/
def Obligations.StepKeepsStatusConsistent : Prop :=
  ∀ s t : State, StatusInv s → step s = .next t → StatusInv t

/-- R42, R140–R146: every step keeps the extracted-field registers fitting PARSE_RES and one another. -/
def Obligations.StepKeepsFieldsConsistent : Prop :=
  ∀ s t : State, FieldsInv s → step s = .next t → FieldsInv t

/-- R242, R7: the three invariants hold at reset, with the model's choices that StepKeepsBufferForm and
StepKeepsStatusConsistent name (log entries 1, 2 and 4). -/
def Obligations.InvariantsHoldAtReset : Prop :=
  BufferInv State.reset ∧ StatusInv State.reset ∧ FieldsInv State.reset
end

