-- ==== Sys2Proof/Laws/Memory.lean ====
section
/-! SUPPORT. The laws of the frame buffer: a read after a write, the canonical form, and the bytes each
multi-byte store and each step of the transform leaves. -/

namespace Sys2Proof.Machine

theorem Memory.find?_write (m : Memory) (a c : Nat) (v : Byte) :
    (m.write a v).find? c = if c = a then some v else m.find? c := by
  induction m with
  | nil => simp only [Memory.write, Memory.find?, eq_comm]
  | cons e m ih =>
    obtain ⟨b, w⟩ := e
    simp only [Memory.write]
    split
    · simp only [Memory.find?]
      split <;> simp_all [eq_comm]
    · split
      · subst b
        simp only [Memory.find?]
        split <;> simp_all [eq_comm]
      · simp only [Memory.find?, ih]
        split <;> split <;> simp_all

/-- A read after a write: the written byte at its offset, the old byte at every other. -/
theorem Memory.read_write (m : Memory) (a c : Nat) (v : Byte) :
    (m.write a v).read c = if c = a then v else m.read c := by
  simp only [Memory.read, Memory.find?_write]
  split <;> rfl

/-- The bytes after a 2-byte store: the high byte lies lower (R60). -/
theorem Memory.read_put16 (m : Memory) (a c : Nat) (v : Half) :
    (m.put16 a v).read c =
      if c = a then v.extractLsb' 8 8 else if c = a + 1 then v.extractLsb' 0 8 else m.read c := by
  simp only [Memory.put16, Memory.read_write]
  split <;> split <;> first | rfl | omega

/-- The bytes after a 4-byte store. -/
theorem Memory.read_put32 (m : Memory) (a c : Nat) (v : Word) :
    (m.put32 a v).read c =
      if c = a then v.extractLsb' 24 8 else if c = a + 1 then v.extractLsb' 16 8
      else if c = a + 2 then v.extractLsb' 8 8 else if c = a + 3 then v.extractLsb' 0 8
      else m.read c := by
  have slice (i j : Nat) (hj : j + 8 ≤ 16) :
      (v.extractLsb' i 16).extractLsb' j 8 = v.extractLsb' (i + j) 8 := by
    ext k hk
    simp only [BitVec.getElem_extractLsb', BitVec.getLsbD_extractLsb', Nat.add_assoc]
    simp [show j + k < 16 by omega]
  simp only [Memory.put32, Memory.read_put16, slice 16 8 (by omega), slice 16 0 (by omega),
    slice 0 8 (by omega), slice 0 0 (by omega)]
  split_ifs <;> first | rfl | omega

/-- `be16` reads only the two bytes at its offset. -/
theorem Memory.be16_congr {m m' : Memory} {a : Nat} (h₀ : m.read a = m'.read a)
    (h₁ : m.read (a + 1) = m'.read (a + 1)) : m.be16 a = m'.be16 a := by
  simp only [Memory.be16, h₀, h₁]

/-- A 16-bit value is its high byte followed by its low byte. -/
theorem half_bytes (v : Half) : v.extractLsb' 8 8 ++ v.extractLsb' 0 8 = v := by
  ext i hi
  simp only [BitVec.getElem_append, BitVec.getElem_extractLsb']
  split
  · simp [BitVec.getLsbD_eq_getElem hi]
  · have : 8 + (i - 8) = i := by omega
    rw [this, BitVec.getLsbD_eq_getElem hi]

theorem byte_hi (x y : Byte) : (x ++ y).extractLsb' 8 8 = x := by
  ext i hi
  rw [BitVec.getElem_extractLsb', BitVec.getLsbD_append]
  simp [BitVec.getLsbD_eq_getElem hi]

theorem byte_lo (x y : Byte) : (x ++ y).extractLsb' 0 8 = y := by
  ext i hi
  rw [BitVec.getElem_extractLsb', BitVec.getLsbD_append]
  simp [hi]

/-- The bytes of a 4-byte read, the lowest offset in the highest bits (R61). -/
theorem Memory.bytes_be32 (m : Memory) (a : Nat) :
    (m.be32 a).extractLsb' 24 8 = m.read a ∧ (m.be32 a).extractLsb' 16 8 = m.read (a + 1) ∧
      (m.be32 a).extractLsb' 8 8 = m.read (a + 2) ∧ (m.be32 a).extractLsb' 0 8 = m.read (a + 3) := by
  refine ⟨?_, ?_, ?_, ?_⟩ <;>
  · ext i hi
    rw [BitVec.getElem_extractLsb', Memory.be32, BitVec.getLsbD_append, Memory.be16,
      BitVec.getLsbD_append, Memory.be16, BitVec.getLsbD_append]
    have h₁ : i < 16 := by omega
    have h₂ : 8 + i < 16 := by omega
    have h₃ : ¬ 24 + i < 16 := by omega
    have h₄ : ¬ 16 + i < 16 := by omega
    have h₅ : 24 + i - 16 = 8 + i := by omega
    have h₆ : 16 + i - 16 = i := by omega
    have h₇ : 8 + i - 8 = i := by omega
    simp [hi, h₁, h₂, h₃, h₄, h₅, h₆, h₇]

/-- A 2-byte store read back where it was stored. -/
@[simp] theorem Memory.be16_put16 (m : Memory) (a : Nat) (v : Half) : (m.put16 a v).be16 a = v := by
  simp only [Memory.be16, Memory.read_put16]
  simp [half_bytes]

/-- `be16` as a number: the byte at the lower offset is the high one. -/
theorem Memory.toNat_be16 (m : Memory) (a : Nat) :
    (m.be16 a).toNat = 256 * (m.read a).toNat + (m.read (a + 1)).toNat := by
  have := (m.read (a + 1)).isLt
  simp only [Memory.be16, BitVec.toNat_append]
  rw [← Nat.shiftLeft_add_eq_or_of_lt this, Nat.shiftLeft_eq]; omega

/-! ### The canonical form -/

theorem Memory.wf_cons {a : Nat} {v : Byte} {m : Memory} :
    Memory.wf ((a, v) :: m) = true ↔ (∀ c ∈ m.head?, a < c.1) ∧ m.wf = true := by
  cases m with
  | nil => simp [Memory.wf]
  | cons e m => obtain ⟨b, w⟩ := e; simp [Memory.wf]

theorem Memory.head?_write {m : Memory} {a b : Nat} {v : Byte} (h : ∀ c ∈ m.head?, b < c.1)
    (hb : b < a) : ∀ c ∈ (m.write a v).head?, b < c.1 := by
  cases m with
  | nil => simpa [Memory.write] using hb
  | cons e m =>
    obtain ⟨d, w⟩ := e
    simp only [Memory.write]
    split
    · simpa using hb
    · split
      · simpa using hb
      · simpa using h

/-- A write keeps the canonical form. -/
theorem Memory.wf_write {m : Memory} {a : Nat} {v : Byte} (h : m.wf = true) :
    (m.write a v).wf = true := by
  induction m with
  | nil => rfl
  | cons e m ih =>
    obtain ⟨b, w⟩ := e
    have hm := Memory.wf_cons.1 h
    simp only [Memory.write]
    split
    · next hab => exact Memory.wf_cons.2 ⟨by simpa using hab, h⟩
    · split
      · next hab => exact Memory.wf_cons.2 ⟨by simpa [hab] using hm.1, hm.2⟩
      · next h₁ h₂ =>
        exact Memory.wf_cons.2 ⟨Memory.head?_write hm.1 (by omega), ih hm.2⟩

theorem Memory.wf_put16 {m : Memory} {a : Nat} {v : Half} (h : m.wf = true) :
    (m.put16 a v).wf = true := Memory.wf_write (Memory.wf_write h)

theorem Memory.wf_put32 {m : Memory} {a : Nat} {v : Word} (h : m.wf = true) :
    (m.put32 a v).wf = true := Memory.wf_put16 (Memory.wf_put16 h)

/-- A host write to the buffer keeps the canonical form. -/
theorem wf_bufferWrite {m : Memory} {size : AccessSize} {off : Nat} {d : Word} (h : m.wf = true) :
    (bufferWrite m size off d).wf = true := by
  cases size
  · exact Memory.wf_write h
  · exact Memory.wf_put16 h
  · exact Memory.wf_put32 h

theorem wf_swapAddresses {m : Memory} (h : m.wf = true) : (swapAddresses m).wf = true :=
  Memory.wf_put32 (Memory.wf_put32 h)

theorem wf_swapPorts {m : Memory} {a rem : Nat} (h : m.wf = true) :
    (swapPorts m a rem).wf = true := by
  unfold swapPorts
  split
  · exact Memory.wf_put16 (Memory.wf_put16 h)
  · exact h

theorem wf_clearUdpChecksum {m : Memory} {a rem : Nat} (h : m.wf = true) :
    (clearUdpChecksum m a rem).wf = true := by
  unfold clearUdpChecksum
  split
  · exact Memory.wf_put16 h
  · exact h

theorem wf_rewriteHeaderChecksum {s : State} {n : Nat} (h : s.buf.wf = true) :
    (s.rewriteHeaderChecksum n).buf.wf = true := Memory.wf_put16 (Memory.wf_put16 h)

/-- The buffer after reset is in the canonical form. -/
theorem wf_reset : State.reset.buf.wf = true := rfl

/-- A write below `n` keeps every listed offset below `n`. -/
theorem Memory.below_write {n : Nat} {m : Memory} {a : Nat} {v : Byte} (h : m.below n = true)
    (ha : a < n) : (m.write a v).below n = true := by
  induction m with
  | nil => simpa [Memory.write, Memory.below] using ha
  | cons e m ih =>
    obtain ⟨b, w⟩ := e
    have hb : b < n ∧ Memory.below n m = true := by simpa [Memory.below] using h
    simp only [Memory.write]
    split
    · simpa [Memory.below, ha] using h
    · split
      · simpa [Memory.below, ha] using hb.2
      · simpa [Memory.below, hb.1] using ih hb.2

theorem Memory.below_put16 {n : Nat} {m : Memory} {a : Nat} {v : Half} (h : m.below n = true)
    (ha : a + 1 < n) : (m.put16 a v).below n = true :=
  Memory.below_write (Memory.below_write h (by omega)) ha

theorem Memory.below_put32 {n : Nat} {m : Memory} {a : Nat} {v : Word} (h : m.below n = true)
    (ha : a + 3 < n) : (m.put32 a v).below n = true :=
  Memory.below_put16 (Memory.below_put16 h (by omega)) (by omega)

/-! ### The bytes after each step of the transform -/

/-- Step 1 exchanges bytes 12–15 with bytes 16–19, in their order (R173). -/
theorem read_swapAddresses (m : Memory) (c : Nat) :
    (swapAddresses m).read c =
      if 12 ≤ c ∧ c < 16 then m.read (c + 4)
      else if 16 ≤ c ∧ c < 20 then m.read (c - 4) else m.read c := by
  obtain ⟨s₀, s₁, s₂, s₃⟩ := m.bytes_be32 12
  obtain ⟨d₀, d₁, d₂, d₃⟩ := m.bytes_be32 16
  simp only [swapAddresses, Memory.read_put32, s₀, s₁, s₂, s₃, d₀, d₁, d₂, d₃]
  by_cases h : 12 ≤ c ∧ c < 20
  · obtain ⟨h₁, h₂⟩ := h
    interval_cases c <;> rfl
  · have h₁ : ¬(12 ≤ c ∧ c < 16) := by omega
    have h₂ : ¬(16 ≤ c ∧ c < 20) := by omega
    simp only [h₁, h₂, if_false]
    split_ifs <;> first | rfl | omega

/-- Step 2 exchanges the two port words, if both lie inside the frame (R151). -/
theorem read_swapPorts (m : Memory) (h rem c : Nat) :
    (swapPorts m h rem).read c =
      if 4 ≤ rem ∧ h ≤ c ∧ c < h + 2 then m.read (c + 2)
      else if 4 ≤ rem ∧ h + 2 ≤ c ∧ c < h + 4 then m.read (c - 2) else m.read c := by
  unfold swapPorts
  by_cases hr : 4 ≤ rem
  · simp only [hr, if_true, true_and, Memory.read_put16, Memory.be16, byte_hi, byte_lo]
    by_cases hc : h ≤ c ∧ c < h + 4
    · obtain ⟨k, rfl⟩ := Nat.exists_eq_add_of_le hc.1
      have hk : k < 4 := by omega
      interval_cases k <;> split_ifs <;> first | rfl | omega
    · split_ifs <;> first | rfl | omega
  · simp [hr]

/-- Step 3 clears the UDP checksum, if it lies inside the frame (R151). -/
theorem read_clearUdpChecksum (m : Memory) (h rem c : Nat) :
    (clearUdpChecksum m h rem).read c =
      if 8 ≤ rem ∧ h + 6 ≤ c ∧ c < h + 8 then 0 else m.read c := by
  unfold clearUdpChecksum
  by_cases hr : 8 ≤ rem
  · simp only [hr, if_true, true_and, Memory.read_put16]
    split_ifs <;> first | rfl | omega
  · simp [hr]

end Sys2Proof.Machine
end

