-- ==== Sys2Proof/Laws/State.lean ====
section
/-! SUPPORT. What each update of the state leaves in each field: one lemma for each field of each update,
true by definition, so that no later proof unfolds a record update. -/

namespace Sys2Proof.Machine

variable (s : State)

/-! ### `State.complete` -/

@[simp] theorem State.complete_cfg (b : Bool) : (s.complete b).cfg = s.cfg := rfl
@[simp] theorem State.complete_regs (b : Bool) :
    (s.complete b).regs = { s.regs with done := true, modified := b } := rfl
@[simp] theorem State.complete_pend (b : Bool) : (s.complete b).pend = none := rfl
@[simp] theorem State.complete_buf (b : Bool) : (s.complete b).buf = s.buf := rfl
@[simp] theorem State.complete_rstN (b : Bool) : (s.complete b).rstN = s.rstN := rfl
@[simp] theorem State.complete_bus (b : Bool) : (s.complete b).bus = s.bus := rfl
@[simp] theorem State.complete_host (b : Bool) : (s.complete b).host = s.host := rfl
@[simp] theorem State.complete_delay (b : Bool) : (s.complete b).delay = s.delay := rfl
@[simp] theorem State.complete_issued (b : Bool) : (s.complete b).issued = s.issued := rfl

/-! ### `State.cmdError` -/

@[simp] theorem State.cmdError_cfg (c : ErrCode) : (s.cmdError c).cfg = s.cfg := rfl
@[simp] theorem State.cmdError_regs (c : ErrCode) :
    (s.cmdError c).regs = { s.regs with err := true, errCode := c, done := true, modified := false } := rfl
@[simp] theorem State.cmdError_pend (c : ErrCode) : (s.cmdError c).pend = none := rfl
@[simp] theorem State.cmdError_buf (c : ErrCode) : (s.cmdError c).buf = s.buf := rfl
@[simp] theorem State.cmdError_rstN (c : ErrCode) : (s.cmdError c).rstN = s.rstN := rfl
@[simp] theorem State.cmdError_bus (c : ErrCode) : (s.cmdError c).bus = s.bus := rfl
@[simp] theorem State.cmdError_host (c : ErrCode) : (s.cmdError c).host = s.host := rfl
@[simp] theorem State.cmdError_delay (c : ErrCode) : (s.cmdError c).delay = s.delay := rfl
@[simp] theorem State.cmdError_issued (c : ErrCode) : (s.cmdError c).issued = s.issued := rfl

/-! ### `State.acknowledge` -/

@[simp] theorem State.acknowledge_cfg (d : Word) : (s.acknowledge d).cfg = s.cfg := rfl
@[simp] theorem State.acknowledge_regs (d : Word) : (s.acknowledge d).regs = 
      { s.regs with
        done := s.regs.done && !d.getLsbD 1
        err := s.regs.err && !d.getLsbD 2
        errCode := if d.getLsbD 2 then .none else s.regs.errCode } := rfl
@[simp] theorem State.acknowledge_pend (d : Word) : (s.acknowledge d).pend = s.pend := rfl
@[simp] theorem State.acknowledge_buf (d : Word) : (s.acknowledge d).buf = s.buf := rfl
@[simp] theorem State.acknowledge_rstN (d : Word) : (s.acknowledge d).rstN = s.rstN := rfl
@[simp] theorem State.acknowledge_bus (d : Word) : (s.acknowledge d).bus = s.bus := rfl
@[simp] theorem State.acknowledge_host (d : Word) : (s.acknowledge d).host = s.host := rfl
@[simp] theorem State.acknowledge_delay (d : Word) : (s.acknowledge d).delay = s.delay := rfl
@[simp] theorem State.acknowledge_issued (d : Word) : (s.acknowledge d).issued = s.issued := rfl

/-! ### `State.acceptCommand` -/

@[simp] theorem State.acceptCommand_cfg (w : Word) : (s.acceptCommand w).cfg = s.cfg := rfl
@[simp] theorem State.acceptCommand_regs (w : Word) :
    (s.acceptCommand w).regs = { s.regs with done := false } := rfl
@[simp] theorem State.acceptCommand_pend (w : Word) : (s.acceptCommand w).pend = some w := rfl
@[simp] theorem State.acceptCommand_buf (w : Word) : (s.acceptCommand w).buf = s.buf := rfl
@[simp] theorem State.acceptCommand_rstN (w : Word) : (s.acceptCommand w).rstN = s.rstN := rfl
@[simp] theorem State.acceptCommand_bus (w : Word) : (s.acceptCommand w).bus = s.bus := rfl
@[simp] theorem State.acceptCommand_host (w : Word) : (s.acceptCommand w).host = s.host := rfl
@[simp] theorem State.acceptCommand_delay (w : Word) :
    (s.acceptCommand w).delay = Config.latency s.issued := rfl
@[simp] theorem State.acceptCommand_issued (w : Word) :
    (s.acceptCommand w).issued = s.issued + 1 := rfl

/-! ### `State.softReset` -/

@[simp] theorem State.softReset_cfg : (s.softReset).cfg = s.cfg := rfl
@[simp] theorem State.softReset_regs : (s.softReset).regs = Regs.reset := rfl
@[simp] theorem State.softReset_pend : (s.softReset).pend = none := rfl
@[simp] theorem State.softReset_buf : (s.softReset).buf = s.buf := rfl
@[simp] theorem State.softReset_rstN : (s.softReset).rstN = s.rstN := rfl
@[simp] theorem State.softReset_bus : (s.softReset).bus = s.bus := rfl
@[simp] theorem State.softReset_host : (s.softReset).host = s.host := rfl
@[simp] theorem State.softReset_delay : (s.softReset).delay = s.delay := rfl
@[simp] theorem State.softReset_issued : (s.softReset).issued = s.issued := rfl

/-! ### `State.hardwareReset` -/

@[simp] theorem State.hardwareReset_cfg : (s.hardwareReset).cfg = s.cfg := rfl
@[simp] theorem State.hardwareReset_regs : (s.hardwareReset).regs = Regs.reset := rfl
@[simp] theorem State.hardwareReset_pend : (s.hardwareReset).pend = none := rfl
@[simp] theorem State.hardwareReset_buf : (s.hardwareReset).buf = [] := rfl
@[simp] theorem State.hardwareReset_rstN : (s.hardwareReset).rstN = true := rfl
@[simp] theorem State.hardwareReset_bus : (s.hardwareReset).bus = .idle := rfl
@[simp] theorem State.hardwareReset_host : (s.hardwareReset).host = s.host := rfl
@[simp] theorem State.hardwareReset_delay : (s.hardwareReset).delay = 0 := rfl
@[simp] theorem State.hardwareReset_issued : (s.hardwareReset).issued = s.issued := rfl

/-! ### `State.respond` -/

@[simp] theorem State.respond_cfg (r : BusResponse) : (s.respond r).cfg = s.cfg := rfl
@[simp] theorem State.respond_regs (r : BusResponse) : (s.respond r).regs = s.regs := rfl
@[simp] theorem State.respond_pend (r : BusResponse) : (s.respond r).pend = s.pend := rfl
@[simp] theorem State.respond_buf (r : BusResponse) : (s.respond r).buf = s.buf := rfl
@[simp] theorem State.respond_rstN (r : BusResponse) : (s.respond r).rstN = s.rstN := rfl
@[simp] theorem State.respond_bus (r : BusResponse) : (s.respond r).bus = r := rfl
@[simp] theorem State.respond_host (r : BusResponse) : (s.respond r).host = s.host := rfl
@[simp] theorem State.respond_delay (r : BusResponse) : (s.respond r).delay = s.delay := rfl
@[simp] theorem State.respond_issued (r : BusResponse) : (s.respond r).issued = s.issued := rfl

/-! ### `State.busError` -/

@[simp] theorem State.busError_cfg (w : Bool) : (s.busError w).cfg = s.cfg := rfl
@[simp] theorem State.busError_regs (w : Bool) : (s.busError w).regs = s.regs := rfl
@[simp] theorem State.busError_pend (w : Bool) : (s.busError w).pend = s.pend := rfl
@[simp] theorem State.busError_buf (w : Bool) : (s.busError w).buf = s.buf := rfl
@[simp] theorem State.busError_rstN (w : Bool) : (s.busError w).rstN = s.rstN := rfl
@[simp] theorem State.busError_bus (w : Bool) :
    (s.busError w).bus = if w then .writeError else .readError := rfl
@[simp] theorem State.busError_host (w : Bool) : (s.busError w).host = s.host := rfl
@[simp] theorem State.busError_delay (w : Bool) : (s.busError w).delay = s.delay := rfl
@[simp] theorem State.busError_issued (w : Bool) : (s.busError w).issued = s.issued := rfl

/-! ### `State.setChecksum` -/

@[simp] theorem State.setChecksum_cfg (c : Checksum) : (s.setChecksum c).cfg = s.cfg := rfl
@[simp] theorem State.setChecksum_regs (c : Checksum) :
    (s.setChecksum c).regs = { s.regs with csumSum := c.sum, csumResult := c.value } := rfl
@[simp] theorem State.setChecksum_pend (c : Checksum) : (s.setChecksum c).pend = s.pend := rfl
@[simp] theorem State.setChecksum_buf (c : Checksum) : (s.setChecksum c).buf = s.buf := rfl
@[simp] theorem State.setChecksum_rstN (c : Checksum) : (s.setChecksum c).rstN = s.rstN := rfl
@[simp] theorem State.setChecksum_bus (c : Checksum) : (s.setChecksum c).bus = s.bus := rfl
@[simp] theorem State.setChecksum_host (c : Checksum) : (s.setChecksum c).host = s.host := rfl
@[simp] theorem State.setChecksum_delay (c : Checksum) : (s.setChecksum c).delay = s.delay := rfl
@[simp] theorem State.setChecksum_issued (c : Checksum) :
    (s.setChecksum c).issued = s.issued := rfl

/-! ### `State.setCsumOk` -/

@[simp] theorem State.setCsumOk_cfg (b : Bool) : (s.setCsumOk b).cfg = s.cfg := rfl
@[simp] theorem State.setCsumOk_regs (b : Bool) :
    (s.setCsumOk b).regs = { s.regs with csumOk := b } := rfl
@[simp] theorem State.setCsumOk_pend (b : Bool) : (s.setCsumOk b).pend = s.pend := rfl
@[simp] theorem State.setCsumOk_buf (b : Bool) : (s.setCsumOk b).buf = s.buf := rfl
@[simp] theorem State.setCsumOk_rstN (b : Bool) : (s.setCsumOk b).rstN = s.rstN := rfl
@[simp] theorem State.setCsumOk_bus (b : Bool) : (s.setCsumOk b).bus = s.bus := rfl
@[simp] theorem State.setCsumOk_host (b : Bool) : (s.setCsumOk b).host = s.host := rfl
@[simp] theorem State.setCsumOk_delay (b : Bool) : (s.setCsumOk b).delay = s.delay := rfl
@[simp] theorem State.setCsumOk_issued (b : Bool) : (s.setCsumOk b).issued = s.issued := rfl

/-! ### `State.vx` -/

@[simp] theorem State.vx_cfg : (s.vx).cfg = s.cfg := rfl
@[simp] theorem State.vx_regs : (s.vx).regs = extract s.buf s.frameLength s.regs := rfl
@[simp] theorem State.vx_pend : (s.vx).pend = s.pend := rfl
@[simp] theorem State.vx_buf : (s.vx).buf = s.buf := rfl
@[simp] theorem State.vx_rstN : (s.vx).rstN = s.rstN := rfl
@[simp] theorem State.vx_bus : (s.vx).bus = s.bus := rfl
@[simp] theorem State.vx_host : (s.vx).host = s.host := rfl
@[simp] theorem State.vx_delay : (s.vx).delay = s.delay := rfl
@[simp] theorem State.vx_issued : (s.vx).issued = s.issued := rfl

/-! ### `State.swapEndpoints` -/

@[simp] theorem State.swapEndpoints_cfg (h rem : Nat) : (s.swapEndpoints h rem).cfg = s.cfg := rfl
@[simp] theorem State.swapEndpoints_regs (h rem : Nat) :
    (s.swapEndpoints h rem).regs = s.regs := rfl
@[simp] theorem State.swapEndpoints_pend (h rem : Nat) :
    (s.swapEndpoints h rem).pend = s.pend := rfl
@[simp] theorem State.swapEndpoints_buf (h rem : Nat) :
    (s.swapEndpoints h rem).buf = swapPorts (swapAddresses s.buf) h rem := rfl
@[simp] theorem State.swapEndpoints_rstN (h rem : Nat) :
    (s.swapEndpoints h rem).rstN = s.rstN := rfl
@[simp] theorem State.swapEndpoints_bus (h rem : Nat) : (s.swapEndpoints h rem).bus = s.bus := rfl
@[simp] theorem State.swapEndpoints_host (h rem : Nat) :
    (s.swapEndpoints h rem).host = s.host := rfl
@[simp] theorem State.swapEndpoints_delay (h rem : Nat) :
    (s.swapEndpoints h rem).delay = s.delay := rfl
@[simp] theorem State.swapEndpoints_issued (h rem : Nat) :
    (s.swapEndpoints h rem).issued = s.issued := rfl

/-! ### `State.dropUdpChecksum` -/

@[simp] theorem State.dropUdpChecksum_cfg (h rem : Nat) :
    (s.dropUdpChecksum h rem).cfg = s.cfg := rfl
@[simp] theorem State.dropUdpChecksum_regs (h rem : Nat) :
    (s.dropUdpChecksum h rem).regs = s.regs := rfl
@[simp] theorem State.dropUdpChecksum_pend (h rem : Nat) :
    (s.dropUdpChecksum h rem).pend = s.pend := rfl
@[simp] theorem State.dropUdpChecksum_buf (h rem : Nat) :
    (s.dropUdpChecksum h rem).buf = clearUdpChecksum s.buf h rem := rfl
@[simp] theorem State.dropUdpChecksum_rstN (h rem : Nat) :
    (s.dropUdpChecksum h rem).rstN = s.rstN := rfl
@[simp] theorem State.dropUdpChecksum_bus (h rem : Nat) :
    (s.dropUdpChecksum h rem).bus = s.bus := rfl
@[simp] theorem State.dropUdpChecksum_host (h rem : Nat) :
    (s.dropUdpChecksum h rem).host = s.host := rfl
@[simp] theorem State.dropUdpChecksum_delay (h rem : Nat) :
    (s.dropUdpChecksum h rem).delay = s.delay := rfl
@[simp] theorem State.dropUdpChecksum_issued (h rem : Nat) :
    (s.dropUdpChecksum h rem).issued = s.issued := rfl

/-! ### The operands read from an updated state -/

@[simp] theorem State.frameLength_complete (b : Bool) : (s.complete b).frameLength = s.frameLength := rfl
@[simp] theorem State.frameLength_cmdError (c : ErrCode) : (s.cmdError c).frameLength = s.frameLength := rfl
@[simp] theorem State.frameLength_respond (r : BusResponse) : (s.respond r).frameLength = s.frameLength := rfl

/-! ### The derived bits -/

@[simp] theorem State.busy_complete (b : Bool) : (s.complete b).busy = false := rfl
@[simp] theorem State.busy_cmdError (c : ErrCode) : (s.cmdError c).busy = false := rfl
@[simp] theorem State.busy_acceptCommand (w : Word) : (s.acceptCommand w).busy = true := rfl
@[simp] theorem State.busy_softReset : s.softReset.busy = false := rfl
@[simp] theorem State.busy_respond (r : BusResponse) : (s.respond r).busy = s.busy := rfl
@[simp] theorem State.irq_respond (r : BusResponse) : (s.respond r).irq = s.irq := rfl

end Sys2Proof.Machine
end

