-- ==== Sys2Proof/Laws/Operations.lean ====
section
/-! SUPPORT. What each shared operation can do, said once, for the proofs to cite. -/

namespace Sys2Proof.Machine

open Sys2Proof.Safety

/-! ### The address map and the register window -/

@[simp] theorem regionOf_registers {p : Params} {a : Nat} (h : a < 0x100) :
    regionOf p a = .registers := by simp [regionOf, h]

@[simp] theorem regionOf_buffer {p : Params} {o : Nat} (h : o < p.bufCap) :
    regionOf p (0x1000 + o) = .buffer o := by
  unfold regionOf
  rw [if_neg (by omega), if_pos (by omega), Nat.add_sub_cancel_left]

theorem regionOf_unmapped {p : Params} {a : Nat}
    (h : (0x100 ≤ a ∧ a < 0x1000) ∨ 0x1000 + p.bufCap ≤ a) : regionOf p a = .unmapped := by
  unfold regionOf
  by_cases h₁ : a < 0x100
  · omega
  · rw [if_neg h₁, if_neg (by omega)]

/-- The legal accesses are those that R216 does not call a bus error. -/
theorem accessLegal_iff {p : Params} {size : AccessSize} {a : Nat} :
    accessLegal p size a = true ↔ ¬BusErrorAt p size.bytes a := by
  unfold accessLegal regionOf BusErrorAt
  by_cases h₁ : a < 0x100
  · cases size <;> (simp [h₁, AccessSize.bytes]; try omega)
  · by_cases h₂ : 0x1000 ≤ a ∧ a < 0x1000 + p.bufCap
    · rw [if_neg h₁, if_pos h₂]
      show decide ((a - 0x1000) % size.bytes = 0) = true ↔ _
      rw [decide_eq_true_eq]
      cases size <;>
      · simp only [AccessSize.bytes]
        omega
    · rw [if_neg h₁, if_neg h₂]
      simp only [Bool.false_eq_true, false_iff, not_not]
      omega

theorem accessLegal_registers {p : Params} {a : Nat} (h : a < 0x100) (h₄ : a % 4 = 0) :
    accessLegal p .four a = true := by simp [accessLegal, h, h₄]

theorem accessLegal_buffer {p : Params} {size : AccessSize} {o : Nat} (h : o < p.bufCap) :
    accessLegal p size (0x1000 + o) = decide (o % size.bytes = 0) := by
  simp [accessLegal, regionOf_buffer h]

/-- A register is found at its own offset. -/
theorem regAt_offset (r : RegName) : regAt r.offset.toNat = some r := by cases r <;> rfl

/-- The offset of a found register. -/
theorem regAt_eq_some {a : Nat} {r : RegName} (h : regAt a = some r) : a = r.offset.toNat := by
  unfold regAt at h
  split at h <;> simp_all [RegName.offset] <;> (subst h; rfl)

/-! ### Host accesses (R197, R198) -/

/-- A host read: a bus error, a held access, or the read data; the bus outputs are all that changes. -/
theorem State.hostRead_cases (s : State) (size : AccessSize) (a : Nat) :
    (accessLegal s.cfg size a = false ∧ s.hostRead size a = { s with bus := .readError }) ∨
    (accessLegal s.cfg size a = true ∧ s.holds false size a = true ∧
      s.hostRead size a = { s with bus := .held }) ∨
    (accessLegal s.cfg size a = true ∧ s.holds false size a = false ∧
      s.hostRead size a = { s with bus := .readDone (s.readAccess size a) }) := by
  unfold State.hostRead
  split
  · next h => exact .inl ⟨h, rfl⟩
  · next h =>
    rw [Bool.not_eq_false] at h
    split
    · next h' => exact .inr (.inl ⟨h, h', rfl⟩)
    · next h' => exact .inr (.inr ⟨h, by simpa using h', rfl⟩)

/-- A host write: a bus error, a held access, or the write. -/
theorem State.hostWrite_cases (s : State) (size : AccessSize) (a : Nat) (d : Word) :
    (accessLegal s.cfg size a = false ∧ s.hostWrite size a d = { s with bus := .writeError }) ∨
    (accessLegal s.cfg size a = true ∧ s.holds true size a = true ∧
      s.hostWrite size a d = { s with bus := .held }) ∨
    (accessLegal s.cfg size a = true ∧ s.holds true size a = false ∧
      s.hostWrite size a d = { s.writeAccess size a d with bus := .writeDone }) := by
  unfold State.hostWrite
  split
  · next h => exact .inl ⟨h, rfl⟩
  · next h =>
    rw [Bool.not_eq_false] at h
    split
    · next h' => exact .inr (.inl ⟨h, h', rfl⟩)
    · next h' => exact .inr (.inr ⟨h, by simpa using h', rfl⟩)

/-- Nothing is held while the engine is idle (R73). -/
theorem State.holds_idle {s : State} (h : s.pend = none) (w : Bool) (size : AccessSize) (a : Nat) :
    s.holds w size a = false := by simp [State.holds, State.busy, h]

/-- A legal read of an idle block. -/
theorem State.hostRead_idle {s : State} {size : AccessSize} {a : Nat} (h : s.pend = none)
    (hl : accessLegal s.cfg size a = true) :
    s.hostRead size a = { s with bus := .readDone (s.readAccess size a) } := by
  simp [State.hostRead, hl, State.holds_idle h, State.respond]

/-- A legal write to an idle block. -/
theorem State.hostWrite_idle {s : State} {size : AccessSize} {a : Nat} {d : Word} (h : s.pend = none)
    (hl : accessLegal s.cfg size a = true) :
    s.hostWrite size a d = { s.writeAccess size a d with bus := .writeDone } := by
  simp [State.hostWrite, hl, State.holds_idle h, State.respond]

/-- A write access changes registers, the latch and the buffer: never the parameters, `rst_n`, the bus
outputs or what the host presents. -/
theorem State.writeAccess_frame (s : State) (size : AccessSize) (a : Nat) (d : Word) :
    (s.writeAccess size a d).cfg = s.cfg ∧ (s.writeAccess size a d).rstN = s.rstN ∧
      (s.writeAccess size a d).bus = s.bus ∧ (s.writeAccess size a d).host = s.host := by
  unfold State.writeAccess
  split
  · unfold State.writeReg
    split
    · next r _ =>
      cases r
      case ctrl => simp only [State.writeNamed]; split <;> simp
      all_goals simp [State.writeNamed]
    · simp
  · simp
  · simp

/-! ### Frame commands -/

/-- The checks of R140 in one predicate. -/
theorem validate_eq_accept {m : Memory} {len : Nat} : validate m len = .accept ↔ Accepted m len := by
  have hv : ipVersion m = 4 ↔ version m = 4 := by
    have := (m.read 0).isLt
    rw [ipVersion, version, ← BitVec.toNat_inj, BitVec.extractLsb'_toNat, Nat.shiftRight_eq_div_pow]
    simp; omega
  have hi : (ipIhl m).toNat = ihl m := by
    rw [ipIhl, ihl, BitVec.extractLsb'_toNat]; rfl
  have hp : ipProto m = Config.udpProto ↔ (m.read 9).toNat = 17 := by
    rw [ipProto, ← BitVec.toNat_inj]; rfl
  unfold validate Accepted hdr
  rw [hi]
  split_ifs with h₁ h₂ h₃ h₄
  · simp; omega
  · simp; intro _ h; exact absurd (hv.2 h) h₂
  · simp; intro _ _ h; exact absurd (hp.2 h) h₃
  · simp; omega
  · have h₂' := hv.1 (not_not.1 h₂)
    have h₃' := hp.1 (not_not.1 h₃)
    simp only [true_iff]; omega

theorem headerLength_eq (m : Memory) : headerLength m = hdr m := by
  rw [headerLength, hdr, ihl, ipIhl, BitVec.extractLsb'_toNat, Nat.mul_comm]; rfl

/-- A frame command on a frame longer than the buffer (R211). -/
theorem State.frameCommand_lenRange {s : State} {f : State → Nat → Nat → State} {g : State → State}
    (h : s.cfg.bufCap < s.frameLength) : s.frameCommand f g = s.cmdError .lenRange := by
  simp [State.frameCommand, h]

/-- A frame command on an accepted frame. -/
theorem State.frameCommand_accept {s : State} {f : State → Nat → Nat → State} {g : State → State}
    (h : s.frameLength ≤ s.cfg.bufCap) (ha : validate s.buf s.frameLength = .accept) :
    s.frameCommand f g = f s.vx (headerLength s.buf) (s.frameLength - headerLength s.buf) := by
  simp [State.frameCommand, Nat.not_lt.2 h, ha]

/-- A frame command on a rejected frame. -/
theorem State.frameCommand_reject {s : State} {f : State → Nat → Nat → State} {g : State → State}
    (h : s.frameLength ≤ s.cfg.bufCap) (hr : validate s.buf s.frameLength ≠ .accept) :
    s.frameCommand f g = g s.vx := by
  rw [State.frameCommand, if_neg (Nat.not_lt.2 h)]
  split
  · contradiction
  · rfl

/-- The registers after `VX()` of an accepted frame. -/
theorem extract_accept {m : Memory} {len : Nat} {r : Regs} (h : validate m len = .accept) :
    extract m len r =
      { extractUdp m (headerLength m) (len - headerLength m) (extractIp m len r) with
        parseRes := .accept } := by
  simp [extract, h]

/-- The registers after `VX()` of a rejected frame. -/
theorem extract_reject {m : Memory} {len : Nat} {r : Regs} (h : validate m len ≠ .accept) :
    extract m len r = { clearUdp (extractIp m len r) with parseRes := validate m len } := by
  unfold extract
  split
  · contradiction
  · rfl

/-- What `VX()` does not write (R45). -/
theorem extract_frame (m : Memory) (len : Nat) (r : Regs) :
    extract m len r =
      { r with
        parseRes := (extract m len r).parseRes, udpShort := (extract m len r).udpShort
        ipInfo := (extract m len r).ipInfo, ipSrc := (extract m len r).ipSrc
        ipDst := (extract m len r).ipDst, udpPorts := (extract m len r).udpPorts
        udpInfo := (extract m len r).udpInfo, payload := (extract m len r).payload
        hdrInfo := (extract m len r).hdrInfo } := by
  by_cases h : validate m len = .accept
  · rw [extract_accept h]
    simp only [extractUdp, extractIp]
    by_cases h₂₀ : 20 ≤ len <;> simp [h₂₀]
  · rw [extract_reject h]
    simp only [clearUdp, extractIp]
    by_cases h₂₀ : 20 ≤ len <;> simp [h₂₀]

/-! ### The checksum -/

/-- The value is the complement of the sum (R111). -/
@[simp] theorem checksum_value (lane : OddLane) (m : Memory) (a n : Nat) :
    (checksum lane m a n).value = ~~~(checksum lane m a n).sum := rfl

/-- The word loop reads only the bytes of its words. -/
theorem addWords_congr {m m' : Memory} {a k : Nat} {acc : Word}
    (h : ∀ c, a ≤ c → c < a + 2 * k → m.read c = m'.read c) :
    addWords m a k acc = addWords m' a k acc := by
  induction k generalizing a acc with
  | zero => rfl
  | succ k ih =>
    simp only [addWords]
    rw [Memory.be16_congr (h a (by omega) (by omega)) (h (a + 1) (by omega) (by omega))]
    exact ih fun c h₁ h₂ => h c (by omega) (by omega)

/-- CK reads only the bytes of its range (R113). -/
theorem checksum_congr {lane : OddLane} {m m' : Memory} {a n : Nat}
    (h : ∀ c, a ≤ c → c < a + n → m.read c = m'.read c) :
    checksum lane m a n = checksum lane m' a n := by
  have hw : addWords m a (n / 2) 0 = addWords m' a (n / 2) 0 :=
    addWords_congr fun c h₁ h₂ => h c h₁ (by omega)
  unfold checksum
  rw [hw]
  by_cases hn : n % 2 = 1
  · rw [h (a + n - 1) (by omega) (by omega)]
  · simp only [hn, if_false]

/-! ### The agents -/

/-- Decoding a command word gives a command, never a host access (R91, R92). -/
theorem decodeCommand_mem {w : Word} {i : Instr} (h : decodeCommand w = .ok i) : i ∈ commands := by
  unfold decodeCommand at h
  split at h
  · simp at h
  · unfold commandOf at h
    split at h
    · next heq =>
      split at heq <;> simp_all [commands]
    · simp at h

/-- Decoding an access tuple gives a host access, never a command. -/
theorem decodeAccess_not_mem {t : BitVec 51} {i : Instr} (h : decodeAccess t = .ok i) :
    i ∉ commands := by
  unfold decodeAccess at h
  split at h <;> simp_all [commands] <;> subst h <;> simp

/-- The engine's step performs a command, or raises `E_ILLEGAL_CMD` (R92, R196). -/
theorem State.engineStep_cases (s : State) (w : Word) :
    (∃ i ∈ commands, decodeCommand w = .ok i ∧ s.engineStep w = exec i s) ∨
    s.engineStep w = .next (raised s .illegalCmd) := by
  unfold State.engineStep
  split
  · next i h => exact .inl ⟨i, decodeCommand_mem h, h, rfl⟩
  · exact .inr rfl

/-- An access while a command is pending that is neither a bus error nor held is a write to CTRL (R73). -/
theorem write_busy {s : State} {size : AccessSize} {a : Nat} (hp : s.pend ≠ none)
    (hl : accessLegal s.cfg size a = true) (hh : s.holds true size a = false) :
    size = .four ∧ a = 0x04 := by
  have hb : s.busy = true := by unfold State.busy; cases h : s.pend <;> simp_all
  simp [State.holds, hb, hl, holdExempt] at hh
  subst hh
  refine ⟨?_, rfl⟩
  simp [accessLegal, regionOf] at hl
  exact hl

/-- What a legal write that is not held can do (R198): a soft reset, a buffer write, the enables, an
acknowledgement, a command's acceptance, or the parameter registers. -/
theorem State.writeAccess_cases (s : State) (size : AccessSize) (a : Nat) (d : Word)
    (hl : accessLegal s.cfg size a = true) (hh : s.holds true size a = false) :
    s.writeAccess size a d = s.softReset ∨
    (∃ b, s.writeAccess size a d = { s with buf := b }) ∨
    (∃ x y, s.writeAccess size a d = { s with regs := { s.regs with ieDone := x, ieErr := y } }) ∨
    (s.pend = none ∧ s.writeAccess size a d = s.acknowledge d) ∨
    (s.pend = none ∧ s.writeAccess size a d = s.acceptCommand d) ∨
    (∃ x y z, s.writeAccess size a d =
      { s with regs := { s.regs with frameLen := x, csumOff := y, csumLen := z } }) := by
  by_cases hp : s.pend = none
  · unfold State.writeAccess
    split
    · unfold State.writeReg
      split
      · next r _ =>
        cases r
        case ctrl =>
          simp only [State.writeNamed]
          split
          · exact .inl rfl
          · exact .inr (.inr (.inl ⟨_, _, rfl⟩))
        case status => exact .inr (.inr (.inr (.inl ⟨hp, rfl⟩)))
        case cmd => exact .inr (.inr (.inr (.inr (.inl ⟨hp, rfl⟩))))
        case frameLen => exact .inr (.inr (.inr (.inr (.inr ⟨_, _, _, rfl⟩))))
        case csumOff => exact .inr (.inr (.inr (.inr (.inr ⟨_, _, _, rfl⟩))))
        case csumLen => exact .inr (.inr (.inr (.inr (.inr ⟨_, _, _, rfl⟩))))
        all_goals exact .inr (.inl ⟨s.buf, rfl⟩)
      · exact .inr (.inl ⟨s.buf, rfl⟩)
    · exact .inr (.inl ⟨_, rfl⟩)
    · exact .inr (.inl ⟨s.buf, rfl⟩)
  · obtain ⟨rfl, rfl⟩ := write_busy hp hl hh
    change (if d.getLsbD 31 then s.softReset else _) = _ ∨ _
    by_cases hd : d.getLsbD 31 = true
    · exact .inl (by rw [if_pos hd])
    · refine .inr (.inr (.inl ⟨d.getLsbD 0, d.getLsbD 1, ?_⟩))
      change (if d.getLsbD 31 then s.softReset else _) = _
      rw [if_neg hd]

/-- One bus access: a change of the bus outputs alone, or a legal write that is not held. -/
theorem State.busAccess_cases (s : State) (t : BitVec 51) :
    (∃ r, s.busAccess t = .next { s with bus := r }) ∨
    (∃ size a d, accessLegal s.cfg size a = true ∧ s.holds true size a = false ∧
      s.busAccess t = .next { s.writeAccess size a d with bus := .writeDone }) := by
  have reads {size : AccessSize} {a : Nat} :
      ∃ r, Host.Outcome.next (φ := Fault) (ρ := Refusal) (s.hostRead size a) =
        .next { s with bus := r } := by
    rcases s.hostRead_cases size a with ⟨-, h⟩ | ⟨-, -, h⟩ | ⟨-, -, h⟩ <;> exact ⟨_, congrArg _ h⟩
  have writes {size : AccessSize} {a : Nat} {d : Word} :
      (∃ r, Host.Outcome.next (φ := Fault) (ρ := Refusal) (s.hostWrite size a d) =
        .next { s with bus := r }) ∨
      (∃ size' a' d', accessLegal s.cfg size' a' = true ∧ s.holds true size' a' = false ∧
        Host.Outcome.next (φ := Fault) (ρ := Refusal) (s.hostWrite size a d) =
          .next { s.writeAccess size' a' d' with bus := .writeDone }) := by
    rcases s.hostWrite_cases size a d with ⟨-, h⟩ | ⟨-, -, h⟩ | ⟨h₁, h₂, h₃⟩
    · exact .inl ⟨_, congrArg _ h⟩
    · exact .inl ⟨_, congrArg _ h⟩
    · exact .inr ⟨_, _, _, h₁, h₂, congrArg _ h₃⟩
  unfold State.busAccess
  split
  · next i h =>
    have hn := decodeAccess_not_mem h
    cases i
    case rd8 => exact .inl reads
    case rd16 => exact .inl reads
    case rd32 => exact .inl reads
    case wr8 => exact writes
    case wr16 => exact writes
    case wr32 => exact writes
    all_goals simp [commands] at hn
  · left
    cases writeField t
    · exact ⟨.readError, rfl⟩
    · exact ⟨.writeError, rfl⟩

/-- The loop `wait` reads BUSY: it ends exactly when no command is pending (R44, R97). -/
theorem waitDone_statusWord (s : State) : waitDone s.statusWord = s.pend.isNone := by
  have h : s.statusWord.getLsbD 0 = s.busy := by
    rw [State.statusWord, BitVec.getLsbD_append]
    simp
  rw [waitDone, h, State.busy]
  cases s.pend <;> rfl

theorem decodeAccess_waitTuple : decodeAccess waitTuple = .ok (.rd32 0x0008) := rfl

/-- A read of STATUS is never held (R73, R197). -/
theorem execRd32_status (s : State) :
    exec (.rd32 0x0008) s = .next { s with bus := .readDone s.statusWord } := by
  have hl : accessLegal s.cfg .four 8 = true := accessLegal_registers (by decide) (by decide)
  have hh : s.holds false .four 8 = false := by simp [State.holds, holdExempt]
  change Host.Outcome.next (s.hostRead .four 8) = _
  simp only [State.hostRead, hl, hh, Bool.true_eq_false, Bool.false_eq_true, if_false]
  rfl

/-- One turn of `wait`: STATUS is read, and while a command is pending the loop stays. -/
theorem State.hostStep_wait (s : State) :
    s.hostStep .wait = .next
      { s with
        host := if s.pend = none then s.host else .wait :: s.host
        bus := .readDone s.statusWord } := by
  have read (u : State) : u.busAccess waitTuple = .next { u with bus := .readDone u.statusWord } := by
    rw [State.busAccess, decodeAccess_waitTuple]
    exact execRd32_status u
  unfold State.hostStep
  rw [waitDone_statusWord]
  by_cases hp : s.pend = none
  · rw [if_pos (by simp [hp]), if_pos hp, read]
  · rw [if_neg (by simpa using hp), if_neg hp, read]
    rfl

/-- The host's step: a level of `rst_n`, a change of the bus outputs alone (and, by a turn of `wait`, of
the list), or a legal write that is not held. -/
theorem State.hostStep_cases (s : State) (e : HostEvent) :
    (∃ l, e = .rstN l ∧ s.hostStep e = .next (s.setRstN l)) ∨
    (∃ r h, s.hostStep e = .next { s with bus := r, host := h }) ∨
    (∃ size a d, accessLegal s.cfg size a = true ∧ s.holds true size a = false ∧
      s.hostStep e = .next { s.writeAccess size a d with bus := .writeDone }) := by
  cases e with
  | rstN l => exact .inl ⟨l, rfl, rfl⟩
  | wait => exact .inr (.inl ⟨_, _, s.hostStep_wait⟩)
  | access t =>
    exact .inr ((s.busAccess_cases t).imp_left fun ⟨r, h⟩ => ⟨r, s.host, h⟩)
  | other t =>
    exact .inr ((s.busAccess_cases t).imp_left fun ⟨r, h⟩ => ⟨r, s.host, h⟩)

/-- When the engine's step is the next one, it performs the pending word. -/
theorem State.agentStep_engineTurn {s : State} {w : Word} (hr : s.rstN = true)
    (hp : s.pend = some w) (ht : EngineTurn s) :
    s.agentStep = { s with bus := engineBus s }.engineStep w := by
  obtain ⟨cfg, regs, pend, buf, rstN, bus, host, delay, issued⟩ := s
  obtain rfl : rstN = true := hr
  obtain rfl : pend = some w := hp
  cases host with
  | nil => rfl
  | cons e rest =>
    simp only [State.agentStep, State.stepBusy, engineBus, headHeld, if_true]
    by_cases he : State.eventHeld
        ⟨cfg, regs, some w, buf, true, bus, e :: rest, delay, issued⟩ e = true
    · simp only [he, if_true]
      cases delay with
      | zero =>
        split
        · simp_all
        · rfl
      | succ n =>
        rcases ht with ht | ht | ⟨e', rest', h, -, hn⟩
        · cases ht
        · cases ht
        · injection h with _ hrest
          subst hrest
          have none_ahead : State.overtaking
              ⟨cfg, regs, some w, buf, true, bus, e :: rest, n + 1, issued⟩ rest = none := by
            unfold State.overtaking
            split
            · next t more => rw [hn t more rfl]; rfl
            · rfl
          rw [none_ahead]
          rfl
    · simp only [he]
      have hd : delay = 0 := by
        rcases ht with ht | ht | ⟨e', rest', h, he', -⟩
        · cases ht
        · exact ht
        · injection h with h _
          subst h
          exact absurd he' he
      simp [hd]

/-- One step, by which agent moves (R72–R74, R240). -/
theorem State.agentStep_cases (s : State) :
    (s.rstN = false ∧ s.agentStep = s.stepInReset) ∨
    (s.rstN = true ∧ s.pend = none ∧ s.host = [] ∧ s.agentStep = .next s) ∨
    (∃ e rest, s.rstN = true ∧ s.pend = none ∧ s.host = e :: rest ∧
      s.agentStep = { s with host := rest }.hostStep e) ∨
    (∃ w, s.rstN = true ∧ s.pend = some w ∧ EngineTurn s ∧
      s.agentStep = { s with bus := engineBus s }.engineStep w) ∨
    (∃ w e rest n, s.rstN = true ∧ s.pend = some w ∧ s.host = e :: rest ∧ s.eventHeld e = false ∧
      s.delay = n + 1 ∧ s.agentStep = { s with host := rest, delay := n }.hostStep e) ∨
    (∃ w e t rest n, s.rstN = true ∧ s.pend = some w ∧ s.host = e :: .other t :: rest ∧
      s.eventHeld e = true ∧ s.eventHeld (.other t) = false ∧ s.delay = n + 1 ∧
      s.agentStep = { s with host := e :: rest, delay := n }.busAccess t) := by
  by_cases hr : s.rstN = true
  · right
    by_cases hp : s.pend = none
    · by_cases hh : s.host = []
      · left; simp [State.agentStep, State.stepIdle, hr, hp, hh]
      · obtain ⟨e, rest, hh⟩ := List.exists_cons_of_ne_nil hh
        right; left
        exact ⟨e, rest, hr, hp, hh, by simp [State.agentStep, State.stepIdle, hr, hp, hh]⟩
    · obtain ⟨w, hp⟩ := Option.ne_none_iff_exists'.1 hp
      right; right
      by_cases ht : EngineTurn s
      · exact .inl ⟨w, hr, hp, ht, State.agentStep_engineTurn hr hp ht⟩
      · right
        unfold EngineTurn at ht
        push Not at ht
        obtain ⟨h₁, h₂, h₃⟩ := ht
        obtain ⟨e, rest, hh⟩ := List.exists_cons_of_ne_nil h₁
        obtain ⟨n, hd⟩ := Nat.exists_eq_succ_of_ne_zero h₂
        by_cases he : s.eventHeld e = true
        · obtain ⟨t, more, hm, hn⟩ := h₃ e rest hh he
          rw [ne_eq, Bool.not_eq_true] at hn
          subst hm
          right
          refine ⟨w, e, t, more, n, hr, hp, hh, he, hn, hd, ?_⟩
          simp [State.agentStep, State.stepBusy, State.overtaking, hr, hp, hh, he, hn, hd]
        · left
          refine ⟨w, e, rest, n, hr, hp, hh, by simpa using he, hd, ?_⟩
          simp [State.agentStep, State.stepBusy, hr, hp, hh, he, hd]
  · left; simp [State.agentStep, hr]

end Sys2Proof.Machine
end

