-- ==== Sys2Proof/Laws/PerInstr.lean ====
section
/-! SUPPORT. The family of per-instruction lemmas: every instruction's code has the fixed bits of its row
in spec/opcode_table.json. -/

namespace Sys2Proof.Laws.TableRow

/-- The mask and the match of the instruction's row in spec/opcode_table.json. -/
def row : Instr → Nat × Nat
  | .nop => (0xFFFFFFFF, 0x00000000)
  | .csum => (0xFFFFFFFF, 0x00000001)
  | .parse => (0xFFFFFFFF, 0x00000002)
  | .swap => (0xFFFFFFFF, 0x00000003)
  | .hdrcsum => (0xFFFFFFFF, 0x00000004)
  | .verify => (0xFFFFFFFF, 0x00000005)
  | .echo => (0xFFFFFFFF, 0x00000006)
  | .rd8 _ => (0x7000000000000, 0x0000000000000)
  | .rd16 _ => (0x7000000000000, 0x1000000000000)
  | .rd32 _ => (0x7000000000000, 0x2000000000000)
  | .wr8 _ _ => (0x7000000000000, 0x4000000000000)
  | .wr16 _ _ => (0x7000000000000, 0x5000000000000)
  | .wr32 _ _ => (0x7000000000000, 0x6000000000000)

/-- The code of `i` under its row's mask is its row's match, at the width of its format (R90). -/
def Statement (i : Instr) : Prop :=
  match encode i with
  | .command w => w &&& BitVec.ofNat 32 (row i).1 = BitVec.ofNat 32 (row i).2
  | .access t => t &&& BitVec.ofNat 51 (row i).1 = BitVec.ofNat 51 (row i).2

/-- The table's mask of a format-H row keeps the fields W and SZ. -/
theorem accessTuple_and_mask (w : Bool) (sz : BitVec 2) (a : Half) (d : Word) :
    accessTuple w sz a d &&& 0x7000000000000#51 = accessTuple w sz 0 0 := by
  have mask : 0x7000000000000#51 = accessTuple true 3 0 0 := by decide
  rw [mask]
  unfold accessTuple
  rw [BitVec.and_append, BitVec.and_append, BitVec.and_append]
  cases w <;> simp <;> revert sz <;> decide

theorem nop : Statement .nop := rfl
theorem csum : Statement .csum := rfl
theorem parse : Statement .parse := rfl
theorem swap : Statement .swap := rfl
theorem hdrcsum : Statement .hdrcsum := rfl
theorem verify : Statement .verify := rfl
theorem echo : Statement .echo := rfl
theorem rd8 (a : Half) : Statement (.rd8 a) :=
  (accessTuple_and_mask false 0 a 0).trans
    (show accessTuple false 0 0 0 = 0x0000000000000#51 by decide)
theorem rd16 (a : Half) : Statement (.rd16 a) :=
  (accessTuple_and_mask false 1 a 0).trans
    (show accessTuple false 1 0 0 = 0x1000000000000#51 by decide)
theorem rd32 (a : Half) : Statement (.rd32 a) :=
  (accessTuple_and_mask false 2 a 0).trans
    (show accessTuple false 2 0 0 = 0x2000000000000#51 by decide)
theorem wr8 (a : Half) (d : Word) : Statement (.wr8 a d) :=
  (accessTuple_and_mask true 0 a d).trans
    (show accessTuple true 0 0 0 = 0x4000000000000#51 by decide)
theorem wr16 (a : Half) (d : Word) : Statement (.wr16 a d) :=
  (accessTuple_and_mask true 1 a d).trans
    (show accessTuple true 1 0 0 = 0x5000000000000#51 by decide)
theorem wr32 (a : Half) (d : Word) : Statement (.wr32 a d) :=
  (accessTuple_and_mask true 2 a d).trans
    (show accessTuple true 2 0 0 = 0x6000000000000#51 by decide)

end Sys2Proof.Laws.TableRow
end

