-- ==== Sys2Proof/Tests/Slice0.lean ====
section
/-! SUPPORT. Tests: the checks of WellFormed, the decoding of words written out from the encoding tables,
one or two vectors of spec/95_test_vectors.md for each instruction, and a witness for the hypotheses of
each statement. -/

namespace Sys2Proof.Tests

open Sys2Proof.Machine Sys2Proof.Safety

/-! ### Helpers -/

/-- These bytes in the buffer, from this offset on. -/
def bytesAt : Nat → List Byte → Memory
  | _, [] => []
  | a, b :: bs => (a, b) :: bytesAt (a + 1) bs

/-- After reset, with these bytes at buffer offset 0 and this FRAME_LEN. -/
def withFrame (bytes : List Byte) (len : Half) : State :=
  { State.reset with buf := bytesAt 0 bytes, regs := { Regs.reset with frameLen := len } }

/-- V-E1 with other bytes 0, 9, 10 and 11. -/
def frameWith (b0 b9 b10 b11 : Byte) : List Byte :=
  [b0, 0x00, 0x00, 0x20, 0x00, 0x00, 0x40, 0x00, 0x40, b9, b10, b11, 0x0A, 0x00, 0x00, 0x02,
   0x0A, 0x00, 0x00, 0x01, 0x13, 0x88, 0x23, 0x28, 0x00, 0x0C, 0xD6, 0x52, 0x70, 0x69, 0x6E, 0x67]

/-- V-E1, the frame of the source's end-to-end scenario. -/
def frameE1 : List Byte := frameWith 0x45 0x11 0x26 0xCB

/-- V-O1, the frame with four bytes of options. -/
def frameO1 : List Byte :=
  [0x46, 0x00, 0x00, 0x24, 0x00, 0x00, 0x40, 0x00, 0x40, 0x11, 0x00, 0x00, 0x0A, 0x00, 0x00, 0x02,
   0x0A, 0x00, 0x00, 0x01, 0x01, 0x01, 0x01, 0x00, 0x13, 0x88, 0x23, 0x28, 0x00, 0x0C, 0x00, 0x00,
   0x70, 0x69, 0x6E, 0x67]

/-- V-E1 as the frame, 32 bytes long. -/
def e1 : State := withFrame frameE1 32

/-- V-E1 with a wrong version, which is rejected (V-P3). -/
def rejected : State := withFrame (frameWith 0x65 0x11 0x26 0xCB) 32

/-- A state with a pending command word and this latency left. -/
def pending (w : Word) (delay : Nat) (host : List HostEvent) : State :=
  { e1 with pend := some w, delay := delay, host := host }

/-- What is seen of the next state, if the step or the instruction gives one. -/
def seen {α : Type} (f : State → α) (o : Host.Outcome State Fault Refusal) : Option α :=
  match o with
  | .next s => some (f s)
  | .fault _ => none
  | .refused _ => none

/-- The listed bytes from an offset on. -/
def bytesFrom (a n : Nat) (s : State) : List (Option Byte) :=
  (List.range n).map fun k => s.buf.find? (a + k)

/-! ### WellFormed: each check refuses an ill-formed term -/

theorem test_wr8_data_too_wide : (Instr.wr8 0x1000 0x100).wellFormed = false := by decide
theorem test_wr8_widest_data : (Instr.wr8 0x1000 0xFF).wellFormed = true := by decide
theorem test_wr16_data_too_wide : (Instr.wr16 0x1000 0x10000).wellFormed = false := by decide
theorem test_wr16_widest_data : (Instr.wr16 0x1000 0xFFFF).wellFormed = true := by decide

/-! ### Decoding: words written out from the tables of R91 and R96 -/

theorem test_decode_nop : decodeTableWord 32 0b00000000000000000000000000000000 = some .nop := by decide
theorem test_decode_csum : decodeTableWord 32 0b00000000000000000000000000000001 = some .csum := by decide
theorem test_decode_parse : decodeTableWord 32 0b00000000000000000000000000000010 = some .parse := by decide
theorem test_decode_swap : decodeTableWord 32 0b00000000000000000000000000000011 = some .swap := by decide
theorem test_decode_hdrcsum :
    decodeTableWord 32 0b00000000000000000000000000000100 = some .hdrcsum := by decide
theorem test_decode_verify :
    decodeTableWord 32 0b00000000000000000000000000000101 = some .verify := by decide
theorem test_decode_echo : decodeTableWord 32 0b00000000000000000000000000000110 = some .echo := by decide
/-- OP 0x7 (V-K2). -/
theorem test_decode_reserved_opcode : decodeCommand 0x00000007 = .error .reservedOpcode := by rfl
/-- RSV = 1 with the OP of ECHO (V-K3). -/
theorem test_decode_reserved_bits : decodeCommand 0x00000016 = .error .reservedBits := by rfl
/-- W = 0, SZ = 0, A = 0x1009. -/
theorem test_decode_rd8 :
    decodeTableWord 56 0b000000100000000100100000000000000000000000000000000 = some (.rd8 0x1009) := by
  decide
/-- W = 0, SZ = 1, A = 0x1014. -/
theorem test_decode_rd16 :
    decodeTableWord 56 0b001000100000001010000000000000000000000000000000000 = some (.rd16 0x1014) := by
  decide
/-- W = 0, SZ = 2, A = 0x0008. -/
theorem test_decode_rd32 :
    decodeTableWord 56 0b010000000000000100000000000000000000000000000000000 = some (.rd32 0x0008) := by
  decide
/-- W = 1, SZ = 0, A = 0x1008, D = 0xAB. -/
theorem test_decode_wr8 :
    decodeTableWord 56 0b100000100000000100000000000000000000000000010101011 =
      some (.wr8 0x1008 0xAB) := by decide
/-- W = 1, SZ = 1, A = 0x100A, D = 0xBEEF. -/
theorem test_decode_wr16 :
    decodeTableWord 56 0b101000100000000101000000000000000001011111011101111 =
      some (.wr16 0x100A 0xBEEF) := by decide
/-- W = 1, SZ = 2, A = 0x0010, D = 0x20. -/
theorem test_decode_wr32 :
    decodeTableWord 56 0b110000000000001000000000000000000000000000000100000 =
      some (.wr32 0x0010 0x20) := by decide
/-- SZ = 3 is illegal (R95). -/
theorem test_decode_illegal_size :
    decodeAccess (0b111000100000000000000000000000000000000000000000000 : BitVec 51) =
      .error .illegalSize := by rfl

/-! ### Commands (spec/95_test_vectors.md) -/

/-- V-K1: STATUS = 0x00000002. -/
theorem test_nop_status : seen (·.statusWord) (exec .nop (pending 0 0 [])) = some 0x00000002 := by decide
/-- V-K6: NOP leaves ERR and its code. -/
theorem test_nop_keeps_error :
    seen (·.statusWord) (exec .nop (State.reset.cmdError .illegalCmd)) = some 0x00000016 := by decide

/-- V-C8: nine bytes, the odd one in the low lane. -/
theorem test_csum_odd :
    seen (fun s => (s.regs.csumSum, s.regs.csumResult))
      (exec .csum
        { withFrame [0x00, 0x01, 0xF2, 0x03, 0xF4, 0xF5, 0xF6, 0xF7, 0xAB] 9 with
          regs := { Regs.reset with frameLen := 9, csumLen := 9 } }) =
      some (0xDE9D, 0x2162) := by decide
/-- V-C17: OFF + N is exact, so 0xFFFF + 2 is past the frame; STATUS as in V-C16. -/
theorem test_csum_range_does_not_wrap :
    seen (·.statusWord)
      (exec .csum
        { e1 with regs := { e1.regs with csumOff := 0xFFFF, csumLen := 2 } }) =
      some 0x00000036 := by decide

/-- V-P1. -/
theorem test_parse_fields :
    seen (fun s => (s.regs.ipInfo, s.regs.udpPorts, s.regs.udpInfo, s.regs.payload, s.regs.hdrInfo))
      (exec .parse e1) =
      some (0x26CB1145, 0x13882328, 0x000CD652, 0x001C0004, 0x00000814) := by decide
/-- V-P9: 26 bytes, so the UDP checksum is not in the frame. -/
theorem test_parse_short_udp :
    seen (fun s => (s.regs.udpShort, s.regs.udpInfo, s.regs.payload, s.regs.hdrInfo))
      (exec .parse (withFrame frameE1 26)) =
      some (true, 0x000C0000, 0x001C0000, 0x00000614) := by decide

/-- V-S1: the addresses and the ports change places, and the UDP checksum stays. -/
theorem test_swap_bytes :
    seen (bytesFrom 12 16) (exec .swap e1) =
      some ([0x0A, 0x00, 0x00, 0x01, 0x0A, 0x00, 0x00, 0x02, 0x23, 0x28, 0x13, 0x88, 0x00, 0x0C, 0xD6,
        0x52].map some) := by decide
/-- R151: with 22 bytes the destination port is not in the frame, so the ports stay. -/
theorem test_swap_short :
    seen (bytesFrom 16 8) (exec .swap (withFrame frameE1 22)) =
      some ([0x0A, 0x00, 0x00, 0x02, 0x13, 0x88, 0x23, 0x28].map some) := by decide

/-- V-H2: the old field does not matter; IPCSUM reports it. -/
theorem test_hdrcsum_ignores_old_field :
    seen (fun s => (bytesFrom 10 2 s, s.regs.csumSum, s.regs.csumResult, s.regs.ipInfo))
      (exec .hdrcsum (withFrame (frameWith 0x45 0x11 0xBE 0xEF) 32)) =
      some ([some 0x26, some 0xCB], 0xD934, 0x26CB, 0xBEEF1145) := by decide
/-- V-P5b: ihl = 4 is rejected, and nothing is stored. -/
theorem test_hdrcsum_rejected :
    seen (fun s => (bytesFrom 10 2 s, s.regs.parseRes, s.regs.modified))
      (exec .hdrcsum (withFrame (frameWith 0x44 0x11 0x26 0xCB) 32)) =
      some ([some 0x26, some 0xCB], .rejHdrlen, false) := by decide

/-- V-V1. -/
theorem test_verify_correct :
    seen (fun s => (s.regs.csumSum, s.regs.csumResult, s.regs.csumOk)) (exec .verify e1) =
      some (0xFFFF, 0x0000, true) := by decide
/-- V-V3. -/
theorem test_verify_wrong :
    seen (fun s => (s.regs.csumSum, s.regs.csumResult, s.regs.csumOk))
      (exec .verify (withFrame (frameWith 0x45 0x11 0x26 0xCC) 32)) =
      some (0x0001, 0xFFFE, false) := by decide

/-- V-X1: V-E2 from its byte 8 on. -/
theorem test_echo_bytes :
    seen (bytesFrom 8 24) (exec .echo e1) =
      some ([0x40, 0x11, 0x26, 0xCB, 0x0A, 0x00, 0x00, 0x01, 0x0A, 0x00, 0x00, 0x02, 0x23, 0x28, 0x13,
        0x88, 0x00, 0x0C, 0x00, 0x00, 0x70, 0x69, 0x6E, 0x67].map some) := by decide
/-- V-X8: the checksum covers the options, and the ports lie after them. -/
theorem test_echo_options :
    seen (fun s => (bytesFrom 10 2 s, bytesFrom 24 4 s, s.regs.csumSum))
      (exec .echo (withFrame frameO1 36)) =
      some ([some 0x23, some 0xC6], [some 0x23, some 0x28, some 0x13, some 0x88], 0xDC39) := by decide

/-- V-K3: the engine raises E_ILLEGAL_CMD for RSV ≠ 0, though OP is ECHO's. -/
theorem test_illegal_word :
    seen (·.statusWord) (step (pending 0x00000016 0 [])) = some 0x00000016 := by decide

/-! ### Host accesses -/

/-- V-K16. -/
theorem test_rd8 : seen (·.bus) (exec (.rd8 0x1009) e1) = some (.readDone 0x00000011) := by decide
/-- V-K10: a narrow read of STATUS is a bus error. -/
theorem test_rd8_register : seen (·.bus) (exec (.rd8 0x0008) e1) = some .readError := by decide
/-- V-K15. -/
theorem test_rd16 : seen (·.bus) (exec (.rd16 0x1014) e1) = some (.readDone 0x00001388) := by decide
/-- V-K9: a misaligned buffer read is a bus error. -/
theorem test_rd16_misaligned : seen (·.bus) (exec (.rd16 0x1001) e1) = some .readError := by decide
/-- V-K14. -/
theorem test_rd32 : seen (·.bus) (exec (.rd32 0x100C) e1) = some (.readDone 0x0A000002) := by decide
/-- V-K12: the first offset past the buffer is a bus error. -/
theorem test_rd32_past_buffer : seen (·.bus) (exec (.rd32 0x1800) e1) = some .readError := by decide
/-- P2, line 2: one byte is stored, and its neighbours stay (R61). -/
theorem test_wr8 :
    seen (bytesFrom 8 2) (exec (.wr8 0x1008 0x123456AB) e1) = some [some 0xAB, some 0x11] := by decide
/-- R73: a buffer write is held while a command is pending. -/
theorem test_wr8_held :
    seen (fun s => (s.bus, s.buf)) (exec (.wr8 0x1008 0xAB) (pending 6 0 [])) = some (.held, e1.buf) := by
  decide
/-- R61: the high byte of the 16 goes to the lower offset. -/
theorem test_wr16 :
    seen (bytesFrom 10 3) (exec (.wr16 0x100A 0xFFFFBEEF) e1) =
      some [some 0xBE, some 0xEF, some 0x0A] := by decide
/-- R216: a misaligned buffer write changes nothing. -/
theorem test_wr16_misaligned :
    seen (fun s => (s.bus, s.buf)) (exec (.wr16 0x100B 0xBEEF) e1) = some (.writeError, e1.buf) := by
  decide
/-- V-K18: FRAME_LEN takes bits 15:0. -/
theorem test_wr32_frame_len :
    seen (·.regs.frameLen) (exec (.wr32 0x0010 0x12340020) State.reset) = some 0x0020 := by decide
/-- V-K8: the soft reset, with bits 1:0 of the write ignored; the buffer stays (R241). -/
theorem test_wr32_soft_reset :
    seen (fun s => (s.regs, s.pend, s.buf)) (exec (.wr32 0x0004 0x80000003) (pending 6 3 [])) =
      some (Regs.reset, none, e1.buf) := by decide

/-- The table's rows run as the first instruction after reset: a command and an access. -/
theorem test_fetch_command :
    seen (·.statusWord) (step (State.reset.withFetchWord 32 0x00000006)) = some 0x00000202 := by decide
theorem test_fetch_access :
    seen (·.bus) (step (State.reset.withFetchWord 56 0x2000000000000)) =
      some (.readDone 0x55544301) := by decide

/-- R97: `wait` on a busy block stays presented; once BUSY reads 0 it is done. -/
theorem test_wait_busy :
    seen (fun s => (s.host, s.bus)) (step (pending 6 1 [.wait])) =
      some ([.wait], .readDone 0x00000001) := by decide
theorem test_wait_idle :
    seen (fun s => (s.host, s.bus)) (step { e1 with host := [.wait] }) =
      some ([], .readDone 0x00000000) := by decide
/-- R97: the lines `cmd ECHO` and `clr`. -/
theorem test_script_cmd : scriptCmd .echo = [.wr32 0x000C 0x00000006] := by decide
theorem test_script_clr : scriptClr = [.wr32 0x0008 0x00000006] := by decide
/-- R194: a soft reset by another master releases a held access: the next step performs it. -/
theorem test_soft_reset_releases_held :
    (seen (fun s => (s.pend, seen (·.bus) (step s)))
      (step (pending 6 1 [.access (accessTuple false 2 0x1000 0),
        .other (accessTuple true 2 0x0004 0x80000000)]))) =
      some (none, some (.readDone 0x45000020)) := by decide

/-! ### Witnesses: concrete states and operands that meet the hypotheses of each statement -/

/-- An access that is held while a command is pending, one that is not, and the soft reset, by the host and
by another master. -/
def heldRead : HostEvent := .access (accessTuple false 2 0x1000 0)
def statusRead : HostEvent := .access (accessTuple false 2 0x0008 0)
def otherRead : HostEvent := .other (accessTuple false 2 0x0008 0)
def softResetWrite : HostEvent := .access (accessTuple true 2 0x0004 0x80000000)
def otherReset : HostEvent := .other (accessTuple true 2 0x0004 0x80000000)

/-- A command is pending and nothing is presented; the latency has run out before a STATUS read; a held
access with latency left and nothing, or another master's held access, behind it. -/
theorem witness_StepPerformsPendingCommand :
    (let s := pending 6 2 []; s.rstN = true ∧ s.pend = some 6 ∧ decode (.command 6) = .ok .echo ∧
      EngineTurn s) ∧
    (let s := pending 0 0 [statusRead]; s.rstN = true ∧ s.pend = some 0 ∧
      decode (.command 0) = .ok .nop ∧ EngineTurn s) ∧
    EngineTurn (pending 6 2 [heldRead]) ∧
    EngineTurn (pending 6 2 [heldRead, .other (accessTuple false 2 0x1000 0)]) :=
  ⟨⟨rfl, rfl, rfl, .inl rfl⟩, ⟨rfl, rfl, rfl, .inr (.inl rfl)⟩,
    .inr (.inr ⟨_, _, rfl, by decide, fun _ _ h => nomatch h⟩),
    .inr (.inr ⟨_, _, rfl, by decide, fun _ _ h => by cases h; decide⟩)⟩

/-- Idle; with one host step of the latency left; and another master's access behind a held one. -/
theorem witness_StepPerformsHostAccess :
    (let s := { e1 with host := [heldRead, statusRead] }; s.rstN = true ∧
      Presents heldRead (accessTuple false 2 0x1000 0) ∧ s.host = heldRead :: [statusRead] ∧ s.pend = none) ∧
    decode (.access (accessTuple false 2 0x1000 0)) = .ok (.rd32 0x1000) ∧
    (let s := pending 6 1 [otherRead]; s.rstN = true ∧
      Presents otherRead (accessTuple false 2 0x0008 0) ∧ s.host = otherRead :: [] ∧ s.pend = some 6 ∧
        s.eventHeld otherRead = false ∧ s.delay = 0 + 1) ∧
    decode (.access (accessTuple false 2 0x0008 0)) = .ok (.rd32 0x0008) ∧
    (let s := pending 6 1 [heldRead, otherRead]; s.rstN = true ∧ s.host = heldRead :: otherRead :: [] ∧
      s.pend = some 6 ∧ s.eventHeld heldRead = true ∧
        s.eventHeld otherRead = false ∧ s.delay = 0 + 1) :=
  ⟨⟨rfl, .inl rfl, rfl, rfl⟩, rfl, ⟨rfl, .inr rfl, rfl, rfl, by decide, rfl⟩, rfl,
    ⟨rfl, rfl, rfl, by decide, by decide, rfl⟩⟩

/-- The least reserved opcode, the greatest, and the least word with RSV ≠ 0; with latency left too. -/
theorem witness_IllegalCommandWordRaises :
    (let s := pending 0x00000007 3 []; s.rstN = true ∧ s.pend = some 0x00000007#32 ∧ EngineTurn s) ∧
    7 ≤ (0x00000007#32).toNat % 16 ∧ 7 ≤ (0x0000000F#32).toNat % 16 ∧ (0x00000010#32).toNat / 16 ≠ 0 ∧
    EngineTurn (pending 0x00000007 3 [heldRead]) ∧ EngineTurn (pending 0x00000010 0 [statusRead]) :=
  ⟨⟨rfl, rfl, .inl rfl⟩, by decide, by decide, by decide,
    .inr (.inr ⟨_, _, rfl, by decide, fun _ _ h => nomatch h⟩), .inr (.inl rfl)⟩

/-- The host's soft reset, and another master's behind a held access of the host. -/
theorem witness_SoftResetRacesPendingCommand :
    (∀ n, let s := pending 6 n [softResetWrite]; s.rstN = true ∧ s.pend = some 6 ∧
      decode (.command 6) = .ok .echo ∧
        Presents softResetWrite (accessTuple true 2 0x0004 0x80000000) ∧ s.host = softResetWrite :: [] ∧
      s.delay = n) ∧
    (0x80000000#32).getLsbD 31 = true ∧
    (∀ n, let s := pending 6 n [heldRead, otherReset]; s.rstN = true ∧ s.pend = some 6 ∧
      s.eventHeld heldRead = true ∧
        Presents heldRead (accessTuple false 2 0x1000 0) ∧ s.host = heldRead :: otherReset :: [] ∧
      s.delay = n) ∧
    decode (.access (accessTuple false 2 0x1000 0)) = .ok (.rd32 0x1000) :=
  ⟨fun _ => ⟨rfl, rfl, rfl, .inl rfl, rfl, rfl⟩, rfl,
    fun _ => ⟨rfl, rfl, rfl, .inl rfl, rfl, rfl⟩, rfl⟩

/-- A pending command with latency left, and `wait` presented to it. -/
theorem witness_PendingCommandLeavesPend :
    (pending 6 3 [statusRead]).rstN = true ∧ (pending 6 3 [statusRead]).pend = some 6 ∧
    (pending 6 3 [.wait]).rstN = true ∧ (pending 6 3 [.wait]).host = .wait :: [] := by decide

theorem witness_IdleBlockKeepsItsState :
    State.reset.rstN = true ∧ State.reset.pend = none ∧ State.reset.host = [] := by decide

/-- At the edges of the buffer, and at the registers next to the exempt ones. -/
theorem witness_BusyHoldsAccesses :
    (pending 6 0 []).pend ≠ none ∧
    ∀ p ∈ ([(1, 0x1000), (1, 0x17FF), (2, 0x1000), (2, 0x17FE), (4, 0x1000), (4, 0x17FC), (4, 0x0004),
        (4, 0x0008), (4, 0x000C), (4, 0x0000)] : List (Nat × Half)),
      ¬BusErrorAt (pending 6 0 []).cfg p.1 p.2.toNat := by decide

/-- In reset with nothing, an access of each kind, and a rise; out of reset with a fall, idle and with a
command pending. -/
theorem witness_HardwareResetState :
    (let s := { e1 with rstN := false, host := [] }; s.rstN = false ∧ s.host = []) ∧
    (∀ e ∈ [statusRead, otherRead, .wait], let s := { e1 with rstN := false, host := [e] }; s.rstN = false ∧ s.host = e :: [] ∧
        e ≠ .rstN false ∧ e ≠ .rstN true) ∧
    (let s := { e1 with rstN := false, host := [.rstN true] }; s.rstN = false ∧ s.host = .rstN true :: []) ∧
    (let s := { e1 with host := [.rstN false] }; s.rstN = true ∧ s.pend = none ∧ s.host = .rstN false :: []) ∧
    (let s := pending 6 1 [.rstN false]; s.rstN = true ∧ s.delay ≠ 0 ∧
      s.host = .rstN false :: []) := by decide

/-- An idle block and a busy one; of these states each clause with a hypothesis on PEND takes one. -/
theorem witness_idle_and_busy : e1.pend = none ∧ (pending 6 0 []).pend ≠ none := by decide

theorem witness_CommandAcceptance : e1.pend = none ∧ (pending 6 0 []).pend ≠ none :=
  witness_idle_and_busy

theorem witness_CtrlWriteEffect :
    (0x80000000#32).getLsbD 31 = true ∧ (0x7FFFFFFF#32).getLsbD 31 = false := by decide

theorem witness_StatusWriteAcknowledges : e1.pend = none ∧ (pending 6 0 []).pend ≠ none :=
  witness_idle_and_busy

theorem witness_ErrorIsSticky :
    Instr.nop ∈ commands ∧ Instr.echo ∈ commands ∧
      (State.reset.cmdError .illegalCmd).regs.err = true := by decide

/-- Each cause of R216 at the ends of its range, and a tuple with SZ = 3. -/
theorem witness_BusErrorsChangeNothing :
    (∀ p ∈ ([(4, 0x0100), (4, 0x0FFC), (4, 0x1800), (1, 0xFFFF), (1, 0x0000), (2, 0x00FE), (4, 0x00FD),
        (2, 0x1001), (4, 0x17FE)] : List (Nat × Half)), BusErrorAt e1.cfg p.1 p.2.toNat) ∧
    sizeField (accessTuple true 3 0x1000 0) = 3 ∧
    Presents (.access (accessTuple true 3 0x1000 0)) (accessTuple true 3 0x1000 0) ∧
    Presents (.other (accessTuple true 3 0x1000 0)) (accessTuple true 3 0x1000 0) ∧
    (let s := { e1 with host := [.access (accessTuple true 3 0x1000 0)] }; s.rstN = true ∧
      s.host = .access (accessTuple true 3 0x1000 0) :: [] ∧ s.pend = none) ∧
    (let s := pending 6 1 [.other (accessTuple true 3 0x1000 0)]; s.rstN = true ∧
      s.host = .other (accessTuple true 3 0x1000 0) :: [] ∧ s.pend = some 6 ∧
        s.delay = 0 + 1) :=
  ⟨by decide, by decide, .inl rfl, .inr rfl, by decide, by decide⟩

theorem witness_IdIsConstant : e1.pend = none := by decide

/-- The ends of the reserved offsets. -/
theorem witness_RegisterReads :
    e1.pend = none ∧ (0x40 ≤ (0x0040#16).toNat ∧ (0x0040#16).toNat < 0x100 ∧ (0x0040#16).toNat % 4 = 0) ∧
    (0x40 ≤ (0x00FC#16).toNat ∧ (0x00FC#16).toNat < 0x100 ∧ (0x00FC#16).toNat % 4 = 0) := by decide

theorem witness_ParameterRegisterWrites : e1.pend = none := by decide

theorem witness_ReadOnlyRegistersIgnoreWrites :
    e1.pend = none ∧
    ((0x0000#16).toNat < 0x100 ∧ (0x0000#16).toNat % 4 = 0 ∧
      (0x0000#16).toNat ∉ [0x04, 0x08, 0x0C, 0x10, 0x14, 0x18]) ∧
    ((0x00FC#16).toNat < 0x100 ∧ (0x00FC#16).toNat % 4 = 0 ∧
      (0x00FC#16).toNat ∉ [0x04, 0x08, 0x0C, 0x10, 0x14, 0x18]) := by decide

theorem witness_ResetValues :
    State.reset.pend = none ∧ State.reset.regs = State.reset.regs ∧
    ((0x0000#16).toNat < 0x100 ∧ (0x0000#16).toNat % 4 = 0) ∧
    ((0x00FC#16).toNat < 0x100 ∧ (0x00FC#16).toNat % 4 = 0) := by decide

/-- The first and the last byte, halfword and word of the buffer. -/
theorem witness_BufferReadLanes :
    e1.pend = none ∧ ((0x1000#16).toNat = 0x1000 + 0 ∧ 0 < e1.cfg.bufCap ∧ 0 % 4 = 0) ∧
    ((0x17FF#16).toNat = 0x1000 + 2047 ∧ 2047 < e1.cfg.bufCap) ∧
    ((0x17FE#16).toNat = 0x1000 + 2046 ∧ 2046 < e1.cfg.bufCap ∧ 2046 % 2 = 0) ∧
    ((0x17FC#16).toNat = 0x1000 + 2044 ∧ 2044 < e1.cfg.bufCap ∧ 2044 % 4 = 0) := by decide

theorem witness_BufferWriteLanes :
    e1.pend = none ∧ ((0x1000#16).toNat = 0x1000 + 0 ∧ 0 < e1.cfg.bufCap ∧ 0 % 4 = 0) ∧
    ((0x17FF#16).toNat = 0x1000 + 2047 ∧ 2047 < e1.cfg.bufCap) ∧
    ((0x17FE#16).toNat = 0x1000 + 2046 ∧ 2046 < e1.cfg.bufCap ∧ 2046 % 2 = 0) ∧
    ((0x17FC#16).toNat = 0x1000 + 2044 ∧ 2044 < e1.cfg.bufCap ∧ 2044 % 4 = 0) := by decide

theorem witness_NarrowWritesIgnoreOtherLanes :
    (0x000000AB#32).extractLsb' 0 8 = (0x123456AB#32).extractLsb' 0 8 ∧
    (0x0000BEEF#32).extractLsb' 0 16 = (0x1234BEEF#32).extractLsb' 0 16 := by decide

theorem witness_BufferWriteReadsBack :
    e1.cfg.Legal ∧ e1.pend = none ∧
    ((0x1000#16).toNat = 0x1000 + 0 ∧ 0 < e1.cfg.bufCap ∧ 0 % 4 = 0) ∧
    ((0x17FC#16).toNat = 0x1000 + 2044 ∧ 2044 < e1.cfg.bufCap ∧ 2044 % 4 = 0) := by decide

/-- The shortest frame that has the field, and the longest that fits. -/
theorem witness_BufferReadEqualsIpSrc :
    (20 ≤ (withFrame frameE1 20).regs.frameLen.toNat ∧
      (withFrame frameE1 20).regs.frameLen.toNat ≤ (withFrame frameE1 20).cfg.bufCap) ∧
    (20 ≤ (withFrame frameE1 2048).regs.frameLen.toNat ∧
      (withFrame frameE1 2048).regs.frameLen.toNat ≤ (withFrame frameE1 2048).cfg.bufCap) := by decide

/-- A frame from offset 0, a tail of three bytes that ends at the buffer's end, and no bytes. -/
theorem witness_ScriptLoadFillsBuffer :
    e1.cfg.Legal ∧ e1.rstN = true ∧ e1.pend = none ∧
    (0 % 4 = 0 ∧ 0 + frameE1.length ≤ e1.cfg.bufCap) ∧
    (2040 % 4 = 0 ∧ 2040 + ([1, 2, 3, 4, 5, 6, 7, 8] : List Byte).length ≤ e1.cfg.bufCap) ∧
    (2044 % 4 = 0 ∧ 2044 + ([1, 2, 3] : List Byte).length ≤ e1.cfg.bufCap) ∧
    (2048 % 4 = 0 ∧ 2048 + ([] : List Byte).length ≤ e1.cfg.bufCap) := by decide

theorem witness_ChecksumIsOnesComplementSum : (0 : Nat) < 65536 ∧ (2048 : Nat) < 65536 ∧
    (65535 : Nat) < 65536 := by decide

/-- Two words exchanged. -/
theorem witness_ChecksumIgnoresWordOrder :
    (2 : Nat) ≤ 30720 ∧
    ((List.range 2).map fun j => num16 (bytesAt 0 [1, 2, 3, 4]) (0 + 2 * j)).Perm
      ((List.range 2).map fun j => num16 (bytesAt 1 [3, 4, 1, 2]) (1 + 2 * j)) :=
  ⟨by decide, List.Perm.swap _ _ []⟩

theorem witness_ChecksumOfSwappedBytes :
    (2 : Nat) ≤ 30720 ∧
    ∀ j < 2, (bytesAt 0 [2, 1, 4, 3]).read (0 + 2 * j) = (bytesAt 0 [1, 2, 3, 4]).read (0 + 2 * j + 1) ∧
      (bytesAt 0 [2, 1, 4, 3]).read (0 + 2 * j + 1) = (bytesAt 0 [1, 2, 3, 4]).read (0 + 2 * j) := by
  decide

/-- CSUM with this range over V-E1. -/
def csumState (off len : Half) : State :=
  { e1 with regs := { e1.regs with csumOff := off, csumLen := len } }

/-- The empty range at the frame's end, and the whole frame. -/
theorem witness_CsumCompletes :
    (csumState 32 0).regs.frameLen.toNat ≤ (csumState 32 0).cfg.bufCap ∧
    (csumState 32 0).regs.csumOff.toNat + (csumState 32 0).regs.csumLen.toNat ≤
      (csumState 32 0).regs.frameLen.toNat ∧
    (csumState 0 32).regs.csumOff.toNat + (csumState 0 32).regs.csumLen.toNat ≤
      (csumState 0 32).regs.frameLen.toNat := by decide

/-- One byte too far, and a sum beyond 16 bits. -/
theorem witness_CsumRangeError :
    (csumState 32 1).regs.frameLen.toNat ≤ (csumState 32 1).cfg.bufCap ∧
    (csumState 32 1).regs.frameLen.toNat <
      (csumState 32 1).regs.csumOff.toNat + (csumState 32 1).regs.csumLen.toNat ∧
    (csumState 0xFFFF 2).regs.frameLen.toNat <
      (csumState 0xFFFF 2).regs.csumOff.toNat + (csumState 0xFFFF 2).regs.csumLen.toNat := by decide

/-- V-C18. -/
theorem witness_LengthErrorStopsBufferCommands :
    (withFrame [] 2049).cfg.bufCap < (withFrame [] 2049).regs.frameLen.toNat ∧
      Instr.csum ∈ bufferCommands ∧ Instr.echo ∈ bufferCommands := by decide

/-- V-O1 cut after its header, and V-E1 with a header of 60 bytes that fills the frame: accepted too. -/
def o1Short : State := withFrame frameO1 24
def headerOnly : State := withFrame (frameWith 0x4F 0x11 0x00 0x00) 60

/-- The hypotheses of every statement about an accepted frame, at the ends of its range: the shortest
frame, one with options, one whose header fills it, and the longest that fits the buffer. -/
theorem witness_accepted_shortest : Accepted (bytesAt 0 frameE1) 20 := by decide
theorem witness_accepted_options : Accepted o1Short.buf o1Short.regs.frameLen.toNat := by decide
theorem witness_accepted_header_only : Accepted headerOnly.buf headerOnly.regs.frameLen.toNat := by decide
theorem witness_accepted_longest : Accepted (bytesAt 0 frameE1) 2048 := by decide

theorem witness_HdrcsumEffect :
    e1.regs.frameLen.toNat ≤ e1.cfg.bufCap ∧ Accepted e1.buf e1.regs.frameLen.toNat := by decide
theorem witness_VerifyEffect :
    e1.regs.frameLen.toNat ≤ e1.cfg.bufCap ∧ Accepted e1.buf e1.regs.frameLen.toNat :=
  witness_HdrcsumEffect
theorem witness_StoredHeaderChecksumVerifies :
    e1.regs.frameLen.toNat ≤ e1.cfg.bufCap ∧ Accepted e1.buf e1.regs.frameLen.toNat ∧
      Instr.hdrcsum ∈ [Instr.hdrcsum, Instr.echo] ∧ Instr.echo ∈ [Instr.hdrcsum, Instr.echo] := by decide
theorem witness_HdrcsumIsIdempotent :
    e1.regs.frameLen.toNat ≤ e1.cfg.bufCap ∧ Accepted e1.buf e1.regs.frameLen.toNat :=
  witness_HdrcsumEffect
theorem witness_VerifyAcceptsBothZeros :
    e1.regs.frameLen.toNat ≤ e1.cfg.bufCap ∧ Accepted e1.buf e1.regs.frameLen.toNat :=
  witness_HdrcsumEffect
theorem witness_ParseReportsAcceptedFrame :
    e1.regs.frameLen.toNat ≤ e1.cfg.bufCap ∧ Accepted e1.buf e1.regs.frameLen.toNat :=
  witness_HdrcsumEffect
theorem witness_SwapEffect :
    e1.regs.frameLen.toNat ≤ e1.cfg.bufCap ∧ Accepted e1.buf e1.regs.frameLen.toNat :=
  witness_HdrcsumEffect
theorem witness_SwapIsAnInvolution :
    e1.regs.frameLen.toNat ≤ e1.cfg.bufCap ∧ Accepted e1.buf e1.regs.frameLen.toNat :=
  witness_HdrcsumEffect
theorem witness_SwapKeepsHeaderChecksum :
    e1.regs.frameLen.toNat ≤ e1.cfg.bufCap ∧ Accepted e1.buf e1.regs.frameLen.toNat :=
  witness_HdrcsumEffect
theorem witness_EchoEffect :
    e1.regs.frameLen.toNat ≤ e1.cfg.bufCap ∧ Accepted e1.buf e1.regs.frameLen.toNat :=
  witness_HdrcsumEffect
/-- V-E1 has its UDP checksum inside the frame; after 24 bytes only the ports are. -/
theorem witness_EchoLeavesOtherBytes :
    e1.regs.frameLen.toNat ≤ e1.cfg.bufCap ∧ Accepted e1.buf e1.regs.frameLen.toNat ∧
      hdr e1.buf + 8 ≤ e1.regs.frameLen.toNat ∧
      hdr (withFrame frameE1 24).buf + 4 ≤ (withFrame frameE1 24).regs.frameLen.toNat := by decide
/-- V-E1's header verifies, and its field is not the second zero. -/
theorem witness_EchoKeepsCorrectChecksum :
    e1.regs.frameLen.toNat ≤ e1.cfg.bufCap ∧ Accepted e1.buf e1.regs.frameLen.toNat ∧
      wordSum e1.buf 0 (hdr e1.buf) % 65535 = 0 ∧ num16 e1.buf 10 ≠ 0xFFFF := by decide
theorem witness_EchoTwiceIsEchoThenSwap :
    e1.regs.frameLen.toNat ≤ e1.cfg.bufCap ∧ Accepted e1.buf e1.regs.frameLen.toNat :=
  witness_HdrcsumEffect

/-- Every frame command, and a frame for each result of R140. -/
theorem witness_FirstFailingCheckDecides :
    (withFrame [] 19).regs.frameLen.toNat ≤ (withFrame [] 19).cfg.bufCap ∧
      (∀ i ∈ [Instr.parse, .swap, .hdrcsum, .verify, .echo], i ∈ frameCommands) ∧
      (withFrame [] 19).regs.frameLen.toNat < 20 ∧ version rejected.buf ≠ 4 ∧
      ((bytesAt 0 (frameWith 0x45 0x06 0 0)).read 9).toNat ≠ 17 ∧
      ihl (bytesAt 0 (frameWith 0x44 0x11 0 0)) < 5 ∧
      32 < hdr (bytesAt 0 (frameWith 0x4F 0x11 0 0)) := by decide

/-- Shorter than 20 bytes, and at least 20 but of another version. -/
theorem witness_ParseReportsRejectedFrame :
    (rejected.regs.frameLen.toNat ≤ rejected.cfg.bufCap ∧
      ¬Accepted rejected.buf rejected.regs.frameLen.toNat ∧ 20 ≤ rejected.regs.frameLen.toNat) ∧
    ((withFrame frameE1 19).regs.frameLen.toNat ≤ (withFrame frameE1 19).cfg.bufCap ∧
      ¬Accepted (withFrame frameE1 19).buf (withFrame frameE1 19).regs.frameLen.toNat ∧
      (withFrame frameE1 19).regs.frameLen.toNat < 20) := by decide

theorem witness_RejectedFrameIsLeftUnchanged :
    rejected.regs.frameLen.toNat ≤ rejected.cfg.bufCap ∧
      ¬Accepted rejected.buf rejected.regs.frameLen.toNat := by decide

/-- Two states that differ in the last byte of V-E1, with 31 bytes of it in the frame. -/
theorem witness_CommandsReadOnlyTheFrame :
    let s := withFrame frameE1 31
    let s' := { s with buf := s.buf.write 31 0, pend := some 6 }
    Instr.echo ∈ commands ∧ s'.cfg = s.cfg ∧ s'.regs = s.regs ∧
      (∀ c < s.regs.frameLen.toNat, s'.buf.read c = s.buf.read c) ∧
      s'.buf.find? 31 ≠ s.buf.find? 31 := by decide

theorem witness_CommandsWriteOnlyInsideFrame :
    Instr.echo ∈ commands ∧ e1.regs.frameLen.toNat ≤ 32 := by decide

theorem witness_CommandsKeepParameterRegisters : Instr.nop ∈ commands ∧ Instr.echo ∈ commands := by
  decide

/-- An ECHO of V-E1 is pending: the invariants hold, and the step answers a next state. -/
theorem witness_StepKeepsBufferForm :
    BufferInv (pending 6 0 []) ∧ ∃ t, step (pending 6 0 []) = .next t :=
  ⟨⟨by decide, by decide, by decide⟩, _, rfl⟩

theorem witness_StepKeepsStatusConsistent :
    StatusInv (pending 6 0 []) ∧ ∃ t, step (pending 6 0 []) = .next t :=
  ⟨⟨by decide, by decide, by decide, .inr (by decide), by decide⟩, _, rfl⟩

/-- V-E1 parsed: the clause for accepted frames applies. -/
def parsed : State :=
  { pending 6 0 [] with
    regs :=
      { Regs.reset with
        frameLen := 32, parseRes := .accept, ipInfo := 0x26CB1145, ipSrc := 0x0A000002
        ipDst := 0x0A000001, udpPorts := 0x13882328, udpInfo := 0x000CD652, payload := 0x001C0004
        hdrInfo := 0x00000814 } }

/-- After an accepted frame, and after a rejected one. -/
theorem witness_StepKeepsFieldsConsistent :
    (FieldsInv parsed ∧ ∃ t, step parsed = .next t) ∧
    FieldsInv { State.reset with
      regs := { Regs.reset with parseRes := .rejVersion, ipInfo := 0x26CB1165 } } :=
  ⟨⟨⟨by decide, by decide, by decide, by decide, by decide, by decide⟩, _, rfl⟩,
    ⟨by decide, by decide, by decide, by decide, by decide, by decide⟩⟩

end Sys2Proof.Tests
end

section
/-! PROOF. The buffer's form: which offsets each store can list, that every operation of the machine keeps the
form and the parameters, and the invariants at reset. -/

namespace Sys2Proof.Machine

open Sys2Proof.Safety

/-! ### The offsets that each store lists -/

/-- A legal buffer access stays inside the buffer: a naturally aligned access that starts below a capacity
divisible by 4 also ends below it (R65). -/
theorem below_bufferWrite {n : Nat} {m : Memory} {size : AccessSize} {off : Nat} {d : Word}
    (h : m.below n = true) (hn : n % 4 = 0) (hoff : off < n) (hal : off % size.bytes = 0) :
    (bufferWrite m size off d).below n = true := by
  cases size with
  | one => exact Memory.below_write h hoff
  | two =>
    have : off % 2 = 0 := hal
    exact Memory.below_put16 h (by omega)
  | four =>
    have : off % 4 = 0 := hal
    exact Memory.below_put32 h (by omega)

theorem below_swapAddresses {n : Nat} {m : Memory} (h : m.below n = true) (hn : 20 ≤ n) :
    (swapAddresses m).below n = true :=
  Memory.below_put32 (Memory.below_put32 h (by omega)) (by omega)

/-- The ports are written only where both lie inside the frame (R151). -/
theorem below_swapPorts {n : Nat} {m : Memory} {a rem : Nat} (h : m.below n = true)
    (hn : a + rem ≤ n) : (swapPorts m a rem).below n = true := by
  unfold swapPorts
  split
  · exact Memory.below_put16 (Memory.below_put16 h (by omega)) (by omega)
  · exact h

/-- The UDP checksum is written only where it lies inside the frame (R151). -/
theorem below_clearUdpChecksum {n : Nat} {m : Memory} {a rem : Nat} (h : m.below n = true)
    (hn : a + rem ≤ n) : (clearUdpChecksum m a rem).below n = true := by
  unfold clearUdpChecksum
  split
  · exact Memory.below_put16 h (by omega)
  · exact h

theorem below_rewriteHeaderChecksum {n : Nat} {s : State} {h : Nat} (hb : s.buf.below n = true)
    (hn : 12 ≤ n) : (s.rewriteHeaderChecksum h).buf.below n = true :=
  Memory.below_put16 (Memory.below_put16 hb (by omega)) (by omega)

/-! ### Operations that keep the form -/

/-- From `s` to `t` the parameters stay, and so does the form of the buffer. -/
def KeepsForm (s t : State) : Prop := BufferInv s → BufferInv t ∧ t.cfg = s.cfg

theorem KeepsForm.trans {s t u : State} (h₁ : KeepsForm s t) (h₂ : KeepsForm t u) : KeepsForm s u := by
  intro hs
  obtain ⟨ht, hts⟩ := h₁ hs
  obtain ⟨hu, hut⟩ := h₂ ht
  exact ⟨hu, hut.trans hts⟩

/-- Only what happens to the parameters and to the buffer matters. -/
theorem KeepsForm.of_buf {s t : State} (hcfg : t.cfg = s.cfg)
    (hbuf : BufferInv s → t.buf.wf = true ∧ t.buf.below s.cfg.bufCap = true) : KeepsForm s t := by
  intro hs
  obtain ⟨hwf, hbelow⟩ := hbuf hs
  exact ⟨⟨hcfg ▸ hs.params, hwf, hcfg ▸ hbelow⟩, hcfg⟩

theorem KeepsForm.of_same {s t : State} (hcfg : t.cfg = s.cfg) (hbuf : t.buf = s.buf) :
    KeepsForm s t :=
  .of_buf hcfg fun hs => hbuf ▸ ⟨hs.rising, hs.inside⟩

/-- What changes neither the parameters nor the buffer can go before. -/
theorem KeepsForm.after_same {s s' t : State} (h : KeepsForm s' t) (hcfg : s'.cfg = s.cfg)
    (hbuf : s'.buf = s.buf) : KeepsForm s t :=
  (KeepsForm.of_same hcfg hbuf).trans h

theorem KeepsForm.refl (s : State) : KeepsForm s s := .of_same rfl rfl

/-! ### The stores of the frame commands -/

theorem keepsForm_rewriteHeaderChecksum (s : State) (h : Nat) :
    KeepsForm s (s.rewriteHeaderChecksum h) :=
  .of_buf rfl fun hs =>
    have hcap := hs.params.1
    ⟨wf_rewriteHeaderChecksum hs.rising, below_rewriteHeaderChecksum hs.inside (by omega)⟩

theorem keepsForm_swapEndpoints {s : State} {h rem : Nat} (hn : h + rem ≤ s.cfg.bufCap) :
    KeepsForm s (s.swapEndpoints h rem) :=
  .of_buf rfl fun hs =>
    have hcap := hs.params.1
    ⟨wf_swapPorts (wf_swapAddresses hs.rising),
      below_swapPorts (below_swapAddresses hs.inside (by omega)) hn⟩

theorem keepsForm_dropUdpChecksum {s : State} {h rem : Nat} (hn : h + rem ≤ s.cfg.bufCap) :
    KeepsForm s (s.dropUdpChecksum h rem) :=
  .of_buf rfl fun hs => ⟨wf_clearUdpChecksum hs.rising, below_clearUdpChecksum hs.inside hn⟩

theorem keepsForm_complete (s : State) (b : Bool) : KeepsForm s (s.complete b) := .of_same rfl rfl

/-- A frame command keeps the form if both of its continuations do. The one for an accepted frame has its
header and the bytes after it inside the buffer: the length check came before it (R211), and the header
ends inside the frame (R140). -/
theorem keepsForm_frameCommand {s : State} {f : State → Nat → Nat → State} {g : State → State}
    (hf : ∀ h rem, h + rem ≤ s.vx.cfg.bufCap → KeepsForm s.vx (f s.vx h rem))
    (hg : KeepsForm s.vx (g s.vx)) : KeepsForm s (s.frameCommand f g) := by
  by_cases hlen : s.frameLength ≤ s.cfg.bufCap
  · by_cases hv : validate s.buf s.frameLength = .accept
    · rw [State.frameCommand_accept hlen hv]
      obtain ⟨-, -, -, -, hhdr⟩ := validate_eq_accept.1 hv
      rw [← headerLength_eq] at hhdr
      exact (hf _ _ (by rw [State.vx_cfg]; omega)).after_same rfl rfl
    · rw [State.frameCommand_reject hlen hv]
      exact hg.after_same rfl rfl
  · rw [State.frameCommand_lenRange (Nat.not_le.1 hlen)]
    exact .of_same rfl rfl

/-! ### The engine's step -/

theorem keepsForm_execCsum {s t : State} (h : execCsum s = .next t) : KeepsForm s t := by
  unfold execCsum at h
  split at h
  · cases h; exact .of_same rfl rfl
  · split at h
    · cases h; exact .of_same rfl rfl
    · cases h; exact .of_same rfl rfl

/-- Every command keeps the form: the stores of SWAP, HDRCSUM and ECHO lie inside an accepted frame, and no
other command stores. -/
theorem keepsForm_command {i : Instr} {s t : State} (hi : i ∈ commands) (h : exec i s = .next t) :
    KeepsForm s t := by
  cases i
  case nop => cases h; exact keepsForm_complete s false
  case csum => exact keepsForm_execCsum h
  case parse =>
    cases h
    exact keepsForm_frameCommand (fun _ _ _ => keepsForm_complete _ _) (keepsForm_complete _ _)
  case swap =>
    cases h
    exact keepsForm_frameCommand
      (fun _ _ hn => .trans (keepsForm_swapEndpoints hn) (keepsForm_complete _ _))
      (keepsForm_complete _ _)
  case hdrcsum =>
    cases h
    exact keepsForm_frameCommand
      (fun _ _ _ => .trans (keepsForm_rewriteHeaderChecksum _ _) (keepsForm_complete _ _))
      (keepsForm_complete _ _)
  case verify =>
    cases h
    exact keepsForm_frameCommand (fun _ _ _ => .of_same rfl rfl) (.of_same rfl rfl)
  case echo =>
    cases h
    exact keepsForm_frameCommand
      (fun _ _ hn => .trans (keepsForm_swapEndpoints hn) <| .trans (keepsForm_dropUdpChecksum hn) <|
        .trans (keepsForm_rewriteHeaderChecksum _ _) (keepsForm_complete _ _))
      (keepsForm_complete _ _)
  all_goals simp [commands] at hi

theorem keepsForm_engineStep {s t : State} {w : Word} (h : s.engineStep w = .next t) :
    KeepsForm s t := by
  rcases s.engineStep_cases w with ⟨i, hi, -, he⟩ | he
  · exact keepsForm_command hi (he ▸ h)
  · rw [he] at h
    cases h
    exact .of_same rfl rfl

/-! ### The host's step -/

/-- The register window does not reach the buffer. -/
@[simp] theorem State.writeReg_buf (s : State) (a : Nat) (d : Word) : (s.writeReg a d).buf = s.buf := by
  unfold State.writeReg
  split
  · next r _ =>
    cases r
    case ctrl => simp only [State.writeNamed]; split <;> rfl
    all_goals rfl
  · rfl

/-- What a legal write access leaves in the buffer: the bytes as they were, or a naturally aligned store that
starts inside the buffer (R64, R65). -/
theorem State.writeAccess_buf_cases {s : State} {size : AccessSize} {a : Nat} {d : Word}
    (hl : accessLegal s.cfg size a = true) :
    (s.writeAccess size a d).buf = s.buf ∨
    ∃ off, off < s.cfg.bufCap ∧ off % size.bytes = 0 ∧
      (s.writeAccess size a d).buf = bufferWrite s.buf size off d := by
  by_cases hbuf : 0x1000 ≤ a ∧ a < 0x1000 + s.cfg.bufCap
  · obtain ⟨off, rfl⟩ := Nat.exists_eq_add_of_le hbuf.1
    have hoff : off < s.cfg.bufCap := by omega
    rw [accessLegal_buffer hoff, decide_eq_true_eq] at hl
    refine .inr ⟨off, hoff, hl, ?_⟩
    rw [State.writeAccess, regionOf_buffer hoff]
  · left
    by_cases hreg : a < 0x100
    · rw [State.writeAccess, regionOf_registers hreg]
      exact s.writeReg_buf a d
    · rw [State.writeAccess, regionOf_unmapped (by omega)]

theorem keepsForm_writeAccess {s : State} {size : AccessSize} {a : Nat} {d : Word}
    (hl : accessLegal s.cfg size a = true) : KeepsForm s (s.writeAccess size a d) := by
  obtain ⟨hcfg, -⟩ := s.writeAccess_frame size a d
  rcases State.writeAccess_buf_cases hl with hbuf | ⟨off, hoff, hal, hbuf⟩
  · exact .of_same hcfg hbuf
  · refine .of_buf hcfg fun hs => ?_
    obtain ⟨-, -, hcap⟩ := hs.params
    rw [hbuf]
    exact ⟨wf_bufferWrite hs.rising, below_bufferWrite hs.inside hcap hoff hal⟩

theorem keepsForm_busAccess {s t : State} {b : BitVec 51} (h : s.busAccess b = .next t) :
    KeepsForm s t := by
  rcases s.busAccess_cases b with ⟨r, he⟩ | ⟨size, a, d, hl, -, he⟩
  all_goals
    rw [he] at h
    cases h
  · exact .of_same rfl rfl
  · exact (keepsForm_writeAccess hl).trans (.of_same rfl rfl)

/-- A level of `rst_n` leaves the state or empties the list of written bytes (R241). -/
theorem keepsForm_setRstN (s : State) (level : Bool) : KeepsForm s (s.setRstN level) := by
  unfold State.setRstN
  split
  · exact .refl s
  · exact .of_buf rfl fun _ => ⟨wf_reset, rfl⟩

theorem keepsForm_hostStep {s t : State} {e : HostEvent} (h : s.hostStep e = .next t) :
    KeepsForm s t := by
  rcases s.hostStep_cases e with ⟨l, -, he⟩ | ⟨r, hs, he⟩ | ⟨size, a, d, hl, -, he⟩
  all_goals
    rw [he] at h
    cases h
  · exact keepsForm_setRstN s l
  · exact .of_same rfl rfl
  · exact (keepsForm_writeAccess hl).trans (.of_same rfl rfl)

/-! ### The step -/

theorem keepsForm_stepInReset {s t : State} (h : s.stepInReset = .next t) : KeepsForm s t := by
  unfold State.stepInReset at h
  split at h
  · cases h; exact .refl s
  · next l rest _ => cases h; exact (keepsForm_setRstN { s with host := rest } l).after_same rfl rfl
  all_goals cases h

/-- Whichever agent moves, taking its event off the list and counting the latency touch neither the
parameters nor the buffer. -/
theorem keepsForm_step {s t : State} (h : step s = .next t) : KeepsForm s t := by
  unfold step at h
  rcases s.agentStep_cases with ⟨-, he⟩ | ⟨-, -, -, he⟩ | ⟨e, rest, -, -, -, he⟩ |
    ⟨w, -, -, -, he⟩ | ⟨w, e, rest, n, -, -, -, -, -, he⟩ | ⟨w, e, b, rest, n, -, -, -, -, -, -,
      he⟩
  all_goals rw [he] at h
  · exact keepsForm_stepInReset h
  · cases h; exact .refl s
  · exact (keepsForm_hostStep h).after_same rfl rfl
  · exact (keepsForm_engineStep h).after_same rfl rfl
  · exact (keepsForm_hostStep h).after_same rfl rfl
  · exact (keepsForm_busAccess h).after_same rfl rfl

/-- Settles O57: `KeepsForm` for every step, from one lemma for each move of an agent. -/
theorem stepKeepsBufferForm : Obligations.StepKeepsBufferForm :=
  fun _ _ hs h => keepsForm_step h hs

/-! ### The invariants at reset -/

theorem bufferInv_reset : BufferInv State.reset where
  params := by decide
  rising := wf_reset
  inside := rfl

/-- No command has run: no status bit is set, and both checksum registers read 0. -/
theorem statusInv_reset : StatusInv State.reset where
  busyNotDone _ := rfl
  errHasCode := ⟨fun _ => rfl, fun _ => rfl⟩
  modifiedAccepted := nofun
  complement := .inr ⟨rfl, rfl⟩
  resetHeld _ := ⟨rfl, rfl⟩

/-- PARSE_RES is NONE at reset, so only the clauses that ask for fields to read 0 apply. -/
theorem fieldsInv_reset : FieldsInv State.reset where
  noIp _ := ⟨rfl, rfl, rfl⟩
  rejVersion := nofun
  rejProto := nofun
  rejHdrlen := nofun
  noUdp _ := ⟨rfl, rfl, rfl, rfl, rfl⟩
  accepted := nofun

/-- Settles O60: the reset state meets each invariant field by field. -/
theorem invariantsHoldAtReset : Obligations.InvariantsHoldAtReset :=
  ⟨bufferInv_reset, statusInv_reset, fieldsInv_reset⟩

end Sys2Proof.Machine
end

section
/-! PROOF. The registers' consistency: what a command can do to the state, the one induction over the moves of a
step, and the STATUS and extracted-field invariants. -/

namespace Sys2Proof.Machine

open Sys2Proof.Safety

/-! ### What a command can do -/

/-- From `u` to `v` only the buffer, CSUM_OK and the two checksum registers change, and these two stay or take
a sum and its complement: all that a command does besides `VX()` and its completion. -/
def Worked (u v : State) : Prop :=
  ∃ buf ok sum value,
    (value = ~~~sum ∨ value = u.regs.csumResult ∧ sum = u.regs.csumSum) ∧
    v = { u with
      buf := buf
      regs := { u.regs with csumOk := ok, csumSum := sum, csumResult := value } }

theorem Worked.trans {u v w : State} (h₁ : Worked u v) (h₂ : Worked v w) : Worked u w := by
  obtain ⟨_, _, sum₁, value₁, h₁, rfl⟩ := h₁
  obtain ⟨buf, ok, sum, value, h₂, rfl⟩ := h₂
  refine ⟨buf, ok, sum, value, ?_, rfl⟩
  obtain h₂ | ⟨rfl, rfl⟩ := h₂
  · exact .inl h₂
  · exact h₁

theorem worked_store (u : State) (buf : Memory) : Worked u { u with buf := buf } :=
  ⟨buf, u.regs.csumOk, u.regs.csumSum, u.regs.csumResult, .inr ⟨rfl, rfl⟩, rfl⟩

theorem Worked.refl (u : State) : Worked u u := worked_store u u.buf

theorem worked_setCsumOk (u : State) (b : Bool) : Worked u (u.setCsumOk b) :=
  ⟨u.buf, b, u.regs.csumSum, u.regs.csumResult, .inr ⟨rfl, rfl⟩, rfl⟩

theorem worked_setChecksum (u : State) (lane : OddLane) (m : Memory) (a n : Nat) :
    Worked u (u.setChecksum (checksum lane m a n)) :=
  ⟨u.buf, u.regs.csumOk, _, _, .inl (checksum_value lane m a n), rfl⟩

theorem worked_rewriteHeaderChecksum (u : State) (h : Nat) : Worked u (u.rewriteHeaderChecksum h) :=
  (worked_setChecksum u _ _ _ _).trans (worked_store _ _)

/-- Every end of a command: an error, a completion without `VX()` (NOP and CSUM), or a completion after it.
MODIFIED is set for an accepted frame only. -/
inductive CommandResult (s : State) : State → Prop
  | error {code : ErrCode} (hcode : code ≠ .none) : CommandResult s (s.cmdError code)
  | unparsed {u : State} (hu : Worked s u) : CommandResult s (u.complete false)
  | parsed {u : State} (modified : Bool)
      (haccept : modified = true → validate s.buf s.frameLength = .accept) (hu : Worked s.vx u) :
      CommandResult s (u.complete modified)

/-- A frame command's end, from what its two continuations do before they complete. -/
theorem commandResult_frameCommand {s : State} {f : State → Nat → Nat → State} {g : State → State}
    {modified : Bool} (hf : ∀ h rem, Worked s.vx (f s.vx h rem)) (hg : Worked s.vx (g s.vx)) :
    CommandResult s (s.frameCommand (fun t h rem => (f t h rem).complete modified)
      (fun t => (g t).complete false)) := by
  by_cases hlen : s.frameLength ≤ s.cfg.bufCap
  · by_cases hv : validate s.buf s.frameLength = .accept
    · rw [State.frameCommand_accept hlen hv]
      exact .parsed modified (fun _ => hv) (hf _ _)
    · rw [State.frameCommand_reject hlen hv]
      exact .parsed false nofun hg
  · rw [State.frameCommand_lenRange (Nat.not_le.1 hlen)]
    exact .error nofun

/-- CSUM checks its two ranges first (R114, R115). -/
theorem execCsum_result (s : State) : ∃ t, execCsum s = .next t ∧ CommandResult s t := by
  unfold execCsum
  split
  · exact ⟨_, rfl, .error nofun⟩
  · split
    · exact ⟨_, rfl, .error nofun⟩
    · exact ⟨_, rfl, .unparsed (worked_setChecksum s _ _ _ _)⟩

theorem command_result {i : Instr} (hi : i ∈ commands) (s : State) :
    ∃ t, exec i s = .next t ∧ CommandResult s t := by
  cases i
  case nop => exact ⟨_, rfl, .unparsed (.refl s)⟩
  case csum => exact execCsum_result s
  case parse => exact ⟨_, rfl, commandResult_frameCommand (fun _ _ => .refl _) (.refl _)⟩
  case swap => exact ⟨_, rfl, commandResult_frameCommand (fun _ _ => worked_store _ _) (.refl _)⟩
  case hdrcsum =>
    exact ⟨_, rfl, commandResult_frameCommand (fun _ _ => worked_rewriteHeaderChecksum _ _) (.refl _)⟩
  case verify =>
    exact ⟨_, rfl, commandResult_frameCommand
      (fun _ _ => (worked_setChecksum _ _ _ _ _).trans (worked_setCsumOk _ _)) (worked_setCsumOk _ _)⟩
  case echo =>
    exact ⟨_, rfl, commandResult_frameCommand
      (fun h rem => (worked_store s.vx (s.vx.swapEndpoints h rem).buf).trans <|
        (worked_store _ ((s.vx.swapEndpoints h rem).dropUdpChecksum h rem).buf).trans
        (worked_rewriteHeaderChecksum _ h)) (.refl _)⟩
  all_goals simp [commands] at hi

/-- A word that is no command ends in an error too. -/
theorem engineStep_result (s : State) (w : Word) :
    ∃ t, s.engineStep w = .next t ∧ CommandResult s t := by
  rcases s.engineStep_cases w with ⟨i, hi, -, he⟩ | he
  · rw [he]
    exact command_result hi s
  · exact ⟨_, he, .error (code := .illegalCmd) nofun⟩

/-! ### The registers that `VX()` does not write (R45) -/

section extract

variable (m : Memory) (len : Nat) (r : Regs)

@[simp] theorem extract_ieDone : (extract m len r).ieDone = r.ieDone := by
  rw [extract_frame]
@[simp] theorem extract_ieErr : (extract m len r).ieErr = r.ieErr := by
  rw [extract_frame]
@[simp] theorem extract_err : (extract m len r).err = r.err := by
  rw [extract_frame]
@[simp] theorem extract_errCode : (extract m len r).errCode = r.errCode := by
  rw [extract_frame]
@[simp] theorem extract_frameLen : (extract m len r).frameLen = r.frameLen := by
  rw [extract_frame]
@[simp] theorem extract_csumOff : (extract m len r).csumOff = r.csumOff := by
  rw [extract_frame]
@[simp] theorem extract_csumLen : (extract m len r).csumLen = r.csumLen := by
  rw [extract_frame]
@[simp] theorem extract_csumResult : (extract m len r).csumResult = r.csumResult := by
  rw [extract_frame]
@[simp] theorem extract_csumSum : (extract m len r).csumSum = r.csumSum := by
  rw [extract_frame]
@[simp] theorem extract_parseRes : (extract m len r).parseRes = validate m len := rfl

end extract

/-! ### The induction over a step's moves -/

/-- What an invariant has to survive for every step to keep it. Registers are written only while `rst_n` is 1,
or by a level of `rst_n` itself. -/
structure KeptByMoves (P : State → Prop) : Prop where
  /-- The bus outputs, what the host presents and the latency left. -/
  outputs : ∀ {s : State} (bus host delay), P s → P { s with bus := bus, host := host, delay := delay }
  setRstN : ∀ {s : State} (level), P s → P (s.setRstN level)
  write : ∀ {s : State} {size : AccessSize} {a : Nat} {d : Word}, s.rstN = true →
    accessLegal s.cfg size a = true → s.holds true size a = false → P s → P (s.writeAccess size a d)
  command : ∀ {s t : State}, s.rstN = true → CommandResult s t → P s → P t

section moves

variable {P : State → Prop} {s t : State}

theorem KeptByMoves.engineStep (hP : KeptByMoves P) {w : Word} (h : s.engineStep w = .next t)
    (hr : s.rstN = true) (hs : P s) : P t := by
  obtain ⟨t', he, hres⟩ := engineStep_result s w
  rw [he] at h
  cases h
  exact hP.command hr hres hs

theorem KeptByMoves.busAccess (hP : KeptByMoves P) {b : BitVec 51} (h : s.busAccess b = .next t)
    (hr : s.rstN = true) (hs : P s) : P t := by
  rcases s.busAccess_cases b with ⟨r, he⟩ | ⟨size, a, d, hl, hh, he⟩
  all_goals
    rw [he] at h
    cases h
  · exact hP.outputs r s.host s.delay hs
  · exact hP.outputs .writeDone _ _ (hP.write hr hl hh hs)

theorem KeptByMoves.hostStep (hP : KeptByMoves P) {e : HostEvent} (h : s.hostStep e = .next t)
    (hr : s.rstN = true) (hs : P s) : P t := by
  rcases s.hostStep_cases e with ⟨l, -, he⟩ | ⟨r, host, he⟩ | ⟨size, a, d, hl, hh, he⟩
  all_goals
    rw [he] at h
    cases h
  · exact hP.setRstN l hs
  · exact hP.outputs r host s.delay hs
  · exact hP.outputs .writeDone _ _ (hP.write hr hl hh hs)

theorem KeptByMoves.stepInReset (hP : KeptByMoves P) (h : s.stepInReset = .next t) (hs : P s) :
    P t := by
  unfold State.stepInReset at h
  split at h
  · cases h; exact hs
  · next l rest _ => cases h; exact hP.setRstN l (hP.outputs s.bus rest s.delay hs)
  all_goals cases h

/-- One step is one move of an agent, after its event is taken off the list. -/
theorem KeptByMoves.step (hP : KeptByMoves P) (h : step s = .next t) (hs : P s) : P t := by
  unfold Machine.step at h
  rcases s.agentStep_cases with ⟨-, he⟩ | ⟨-, -, -, he⟩ | ⟨e, rest, hr, -, -, he⟩ |
    ⟨w, hr, -, -, he⟩ | ⟨w, e, rest, n, hr, -, -, -, -, he⟩ | ⟨w, e, b, rest, n, hr, -, -, -, -, -, he⟩
  all_goals rw [he] at h
  · exact hP.stepInReset h hs
  · cases h; exact hs
  · exact hP.hostStep h hr (hP.outputs s.bus rest s.delay hs)
  · exact hP.engineStep h hr (hP.outputs (engineBus s) s.host s.delay hs)
  · exact hP.hostStep h hr (hP.outputs s.bus rest n hs)
  · exact hP.busAccess h hr (hP.outputs s.bus (e :: rest) n hs)

end moves

/-! ### The STATUS fields and the checksum registers -/

/-- The reset values meet every clause, at either level of `rst_n`. -/
theorem statusInv_of_reset {t : State} (hregs : t.regs = Regs.reset) (hpend : t.pend = none) :
    StatusInv t where
  busyNotDone h := absurd hpend h
  errHasCode := by rw [hregs]; exact statusInv_reset.errHasCode
  modifiedAccepted := by rw [hregs]; exact statusInv_reset.modifiedAccepted
  complement := by rw [hregs]; exact statusInv_reset.complement
  resetHeld _ := ⟨hregs, hpend⟩

theorem statusInv_setRstN {s : State} (hs : StatusInv s) (level : Bool) :
    StatusInv (s.setRstN level) := by
  unfold State.setRstN
  split
  · exact hs
  · exact statusInv_of_reset rfl rfl

/-- DONE only falls, and ERR and ERR_CODE are cleared by the same bit (R195). -/
theorem statusInv_acknowledge {s : State} (hs : StatusInv s) (hr : s.rstN = true) (hp : s.pend = none)
    (d : Word) : StatusInv (s.acknowledge d) where
  busyNotDone h := absurd hp h
  errHasCode := by
    rw [State.acknowledge_regs]
    cases d.getLsbD 2
    · simpa using hs.errHasCode
    · simp
  modifiedAccepted := hs.modifiedAccepted
  complement := hs.complement
  resetHeld h := by simp [hr] at h

theorem statusInv_acceptCommand {s : State} (hs : StatusInv s) (hr : s.rstN = true) (w : Word) :
    StatusInv (s.acceptCommand w) where
  busyNotDone _ := rfl
  errHasCode := hs.errHasCode
  modifiedAccepted := hs.modifiedAccepted
  complement := hs.complement
  resetHeld h := by simp [hr] at h

/-- The enables and the parameter registers are in no clause but the one for reset. -/
theorem statusInv_of_ctrl_params {s : State} (hs : StatusInv s) (hr : s.rstN = true) (x y : Bool)
    (frameLen csumOff csumLen : Half) :
    StatusInv { s with
      regs := { s.regs with
        ieDone := x, ieErr := y, frameLen := frameLen, csumOff := csumOff, csumLen := csumLen } } where
  busyNotDone := hs.busyNotDone
  errHasCode := hs.errHasCode
  modifiedAccepted := hs.modifiedAccepted
  complement := hs.complement
  resetHeld h := by simp [hr] at h

theorem statusInv_writeAccess {s : State} {size : AccessSize} {a : Nat} {d : Word}
    (hr : s.rstN = true) (hl : accessLegal s.cfg size a = true) (hh : s.holds true size a = false)
    (hs : StatusInv s) : StatusInv (s.writeAccess size a d) := by
  rcases s.writeAccess_cases size a d hl hh with h | ⟨b, h⟩ | ⟨x, y, h⟩ | ⟨hp, h⟩ | ⟨-, h⟩ | ⟨x, y, z, h⟩
  all_goals rw [h]
  · exact statusInv_of_reset rfl rfl
  · exact { hs with }
  · exact statusInv_of_ctrl_params hs hr x y _ _ _
  · exact statusInv_acknowledge hs hr hp d
  · exact statusInv_acceptCommand hs hr d
  · exact statusInv_of_ctrl_params hs hr _ _ x y z

/-- The error sets ERR with a code and leaves the checksum registers (R212). -/
theorem statusInv_cmdError {s : State} (hs : StatusInv s) (hr : s.rstN = true) {code : ErrCode}
    (hcode : code ≠ .none) : StatusInv (s.cmdError code) where
  busyNotDone h := absurd rfl h
  errHasCode := by simpa using hcode
  modifiedAccepted := nofun
  complement := hs.complement
  resetHeld h := by simp [hr] at h

/-- A completion keeps the STATUS clauses if the work before it kept the error fields and left a complement
pair, and MODIFIED is set for an accepted frame only. -/
theorem statusInv_complete {s u v : State} (hs : StatusInv s) (hr : s.rstN = true)
    (hrst : u.rstN = s.rstN) (herr : u.regs.err = s.regs.err) (hcode : u.regs.errCode = s.regs.errCode)
    (hvalue : u.regs.csumResult = s.regs.csumResult) (hsum : u.regs.csumSum = s.regs.csumSum)
    {modified : Bool} (haccept : modified = true → u.regs.parseRes = .accept) (hv : Worked u v) :
    StatusInv (v.complete modified) := by
  obtain ⟨buf, ok, sum, value, hpair, rfl⟩ := hv
  refine ⟨fun h => absurd rfl h, ?_, haccept, ?_, fun h => ?_⟩
  · simpa only [State.complete_regs, herr, hcode] using hs.errHasCode
  · obtain h | ⟨rfl, rfl⟩ := hpair
    · exact .inl h
    · simpa only [State.complete_regs, hvalue, hsum] using hs.complement
  · simp [hrst, hr] at h

theorem statusInv_commandResult {s t : State} (hr : s.rstN = true) (h : CommandResult s t)
    (hs : StatusInv s) : StatusInv t := by
  cases h with
  | error hcode => exact statusInv_cmdError hs hr hcode
  | unparsed hu => exact statusInv_complete hs hr rfl rfl rfl rfl rfl nofun hu
  | parsed modified haccept hu =>
    exact statusInv_complete (u := s.vx) hs hr rfl (extract_err _ _ _) (extract_errCode _ _ _)
      (extract_csumResult _ _ _) (extract_csumSum _ _ _) haccept hu

theorem statusInv_keptByMoves : KeptByMoves StatusInv where
  outputs _ _ _ hs := { hs with }
  setRstN level hs := statusInv_setRstN hs level
  write := statusInv_writeAccess
  command := statusInv_commandResult

/-- Settles O58: the STATUS invariant survives every move of an agent. -/
theorem stepKeepsStatusConsistent : Obligations.StepKeepsStatusConsistent :=
  fun _ _ hs h => statusInv_keptByMoves.step h hs

/-! ### The extracted-field registers -/

/-- The registers that the fields' invariant speaks of: PARSE_RES, UDP_SHORT and the extracted fields. -/
def frameFields (r : Regs) : ParseRes × Bool × Word × Word × Word × Word × Word × Word × Word :=
  (r.parseRes, r.udpShort, r.ipInfo, r.ipSrc, r.ipDst, r.udpPorts, r.udpInfo, r.payload, r.hdrInfo)

theorem fieldsInv_of_frameFields {s t : State} (hs : FieldsInv s) (h : frameFields t.regs = frameFields s.regs) :
    FieldsInv t := by
  simp only [frameFields, Prod.mk.injEq] at h
  obtain ⟨hres, hshort, hinfo, hsrc, hdst, hports, hudp, hpayload, hhdr⟩ := h
  obtain ⟨h₁, h₂, h₃, h₄, h₅, h₆⟩ := hs
  constructor <;>
    simpa only [regIhl, regVersion, regProto, regUdpBytes, hres, hshort, hinfo, hsrc, hdst, hports,
      hudp, hpayload, hhdr]

/-- A concatenation as a number. -/
theorem toNat_append_eq {v w : Nat} (x : BitVec v) (y : BitVec w) :
    (x ++ y).toNat = 2 ^ w * x.toNat + y.toNat := by
  rw [BitVec.toNat_append, ← Nat.shiftLeft_add_eq_or_of_lt y.isLt, Nat.shiftLeft_eq, Nat.mul_comm]

@[simp] theorem toNat_ipIhl (m : Memory) : (ipIhl m).toNat = ihl m := by
  rw [ipIhl, BitVec.extractLsb'_toNat]
  rfl

@[simp] theorem toNat_ipVersion (m : Memory) : (ipVersion m).toNat = version m := by
  have := (m.read 0).isLt
  rw [ipVersion, version, BitVec.extractLsb'_toNat, Nat.shiftRight_eq_div_pow]
  omega

/-- What each result of the checks says about the frame (R140). -/
def ResultMeans (m : Memory) (len : Nat) : ParseRes → Prop
  | .none => False
  | .rejShort => len < 20
  | .rejVersion => 20 ≤ len ∧ version m ≠ 4
  | .rejProto => 20 ≤ len ∧ version m = 4 ∧ (m.read 9).toNat ≠ 17
  | .rejHdrlen => 20 ≤ len ∧ version m = 4 ∧ (m.read 9).toNat = 17
  | .accept => Accepted m len

theorem validate_means {m : Memory} {len : Nat} {res : ParseRes} (h : validate m len = res) :
    ResultMeans m len res := by
  have hversion : ipVersion m = 4 ↔ version m = 4 := by rw [← BitVec.toNat_inj, toNat_ipVersion]; rfl
  have hproto : ipProto m = Config.udpProto ↔ (m.read 9).toNat = 17 := by
    rw [← BitVec.toNat_inj]; rfl
  subst h
  unfold validate
  rw [toNat_ipIhl]
  split_ifs with hshort hver hpro hlen
  · exact hshort
  · exact ⟨Nat.not_lt.1 hshort, fun h => hver (hversion.2 h)⟩
  · exact ⟨Nat.not_lt.1 hshort, hversion.1 (not_not.1 hver), fun h => hpro (hproto.2 h)⟩
  · exact ⟨Nat.not_lt.1 hshort, hversion.1 (not_not.1 hver), hproto.1 (not_not.1 hpro)⟩
  · refine ⟨Nat.not_lt.1 hshort, hversion.1 (not_not.1 hver), hproto.1 (not_not.1 hpro), ?_, ?_⟩
    · omega
    · unfold hdr; omega

/-- The IPv4 registers of a frame that holds the header, accepted or not (R36, R146). -/
theorem extract_ip {m : Memory} {len : Nat} (r : Regs) (h : 20 ≤ len) :
    regIhl (extract m len r) = ihl m ∧ regVersion (extract m len r) = version m ∧
      regProto (extract m len r) = (m.read 9).toNat := by
  have hinfo : (extract m len r).ipInfo = ipChecksum m ++ ipProto m ++ ipVersion m ++ ipIhl m := by
    by_cases hv : validate m len = .accept
    · simp [extract_accept hv, extractUdp, extractIp, h]
    · simp [extract_reject hv, clearUdp, extractIp, h]
  have hproto : (ipProto m).toNat = (m.read 9).toNat := rfl
  have := (ipIhl m).isLt
  have := (ipVersion m).isLt
  have := (ipProto m).isLt
  simp only [regIhl, regVersion, regProto, hinfo, toNat_append_eq]
  simp only [toNat_ipIhl, toNat_ipVersion, hproto] at *
  omega

/-- The IPv4 registers of a shorter frame (R146). -/
theorem extract_ip_short {m : Memory} {len : Nat} {r : Regs} (h : len < 20) :
    (extract m len r).ipInfo = 0 ∧ (extract m len r).ipSrc = 0 ∧ (extract m len r).ipDst = 0 := by
  have hv : validate m len ≠ .accept := fun hv => by
    obtain ⟨hlen, -⟩ := validate_eq_accept.1 hv
    omega
  simp [extract_reject hv, clearUdp, extractIp, Nat.not_le.2 h]

/-- HDR_INFO as a number (R42). -/
theorem extractUdp_hdrInfo (m : Memory) {h : Nat} (rem : Nat) (r : Regs) (hh : h < 256) :
    (extractUdp m h rem r).hdrInfo.toNat = 256 * min rem 8 + h := by
  simp only [extractUdp, udpBytes, toNat_append_eq, BitVec.toNat_ofNat]
  omega

/-- PAYLOAD as a number: its length is clamped to 0 (R144). -/
theorem extractUdp_payload (m : Memory) {h : Nat} (rem : Nat) (r : Regs) (hh : h + 8 < 65536) :
    (extractUdp m h rem r).payload.toNat = 65536 * (h + 8) + (rem - 8) % 65536 := by
  simp only [extractUdp, toNat_append_eq, BitVec.toNat_ofNat]
  omega

/-- UDP_PORTS, half by half: a port that does not lie inside the frame reads 0 (R143). -/
theorem extractUdp_udpPorts (m : Memory) (h rem : Nat) (r : Regs) :
    (rem < 4 → (extractUdp m h rem r).udpPorts.toNat % 65536 = 0) ∧
      (rem < 2 → (extractUdp m h rem r).udpPorts.toNat / 65536 = 0) := by
  have := (udpDport m h rem).isLt
  simp only [extractUdp, toNat_append_eq]
  constructor <;> intro hrem
  · have hdport : udpDport m h rem = 0 := if_neg (Nat.not_le.2 hrem)
    simp [hdport]
  · have hsport : udpSport m h rem = 0 := if_neg (Nat.not_le.2 hrem)
    rw [hsport, show (0 : Half).toNat = 0 from rfl]
    omega

/-- UDP_INFO, half by half (R143). -/
theorem extractUdp_udpInfo (m : Memory) (h rem : Nat) (r : Regs) :
    (rem < 8 → (extractUdp m h rem r).udpInfo.toNat % 65536 = 0) ∧
      (rem < 6 → (extractUdp m h rem r).udpInfo.toNat / 65536 = 0) := by
  have := (udpChecksum m h rem).isLt
  simp only [extractUdp, toNat_append_eq]
  constructor <;> intro hrem
  · have hcsum : udpChecksum m h rem = 0 := if_neg (Nat.not_le.2 hrem)
    simp [hcsum]
  · have hlength : udpLength m h rem = 0 := if_neg (Nat.not_le.2 hrem)
    rw [hlength, show (0 : Half).toNat = 0 from rfl]
    omega

/-- An accepted frame: the header has at most 60 bytes, so its length fits in HDR_INFO and in PAYLOAD. -/
theorem fieldsInv_vx_accepted {s : State} (h : validate s.buf s.frameLength = .accept) :
    FieldsInv s.vx where
  noIp hres := by simp [h] at hres
  rejVersion hres := by simp [h] at hres
  rejProto hres := by simp [h] at hres
  rejHdrlen hres := by simp [h] at hres
  noUdp hres := absurd h hres
  accepted _ := by
    obtain ⟨hlen, hversion, hproto, hihl, -⟩ := validate_means h
    obtain ⟨hregIhl, hregVersion, hregProto⟩ := extract_ip (m := s.buf) s.regs hlen
    have hihl16 : ihl s.buf < 16 := Nat.mod_lt _ (by decide)
    have hheader : headerLength s.buf = 4 * ihl s.buf := headerLength_eq s.buf
    rw [State.vx_regs, hregIhl, hregVersion, hregProto, extract_accept h, hheader]
    generalize s.frameLength - 4 * ihl s.buf = rem
    generalize extractIp s.buf s.frameLength s.regs = r
    have hhdr := extractUdp_hdrInfo s.buf rem r (h := 4 * ihl s.buf) (by omega)
    have hpayload := extractUdp_payload s.buf rem r (h := 4 * ihl s.buf) (by omega)
    have hbytes : (256 * min rem 8 + 4 * ihl s.buf) / 256 = min rem 8 := by omega
    obtain ⟨hdport, hsport⟩ := extractUdp_udpPorts s.buf (4 * ihl s.buf) rem r
    obtain ⟨hcsum, hulen⟩ := extractUdp_udpInfo s.buf (4 * ihl s.buf) rem r
    have hshort : (extractUdp s.buf (4 * ihl s.buf) rem r).udpShort = decide (rem < 8) := rfl
    simp only [regUdpBytes, hhdr, hbytes, hpayload, hshort]
    exact ⟨hversion, hproto, hihl, by omega, by omega, by simp, by omega,
      fun hrem => ⟨by omega, hcsum (by omega)⟩, fun hrem => hulen (by omega),
      fun hrem => hdport (by omega), fun hrem => hsport (by omega)⟩

/-- A rejected frame: every UDP register reads 0, and the IPv4 registers show the check that failed. -/
theorem fieldsInv_vx_rejected {s : State} (h : validate s.buf s.frameLength ≠ .accept) :
    FieldsInv s.vx where
  noIp
    | .inl hnone => (validate_means hnone).elim
    | .inr hshort => extract_ip_short (validate_means hshort)
  rejVersion hres := by
    obtain ⟨hlen, hversion⟩ := validate_means hres
    obtain ⟨-, hregVersion, -⟩ := extract_ip (m := s.buf) s.regs hlen
    exact hregVersion ▸ hversion
  rejProto hres := by
    obtain ⟨hlen, hversion, hproto⟩ := validate_means hres
    obtain ⟨-, hregVersion, hregProto⟩ := extract_ip (m := s.buf) s.regs hlen
    exact ⟨hregVersion.trans hversion, hregProto ▸ hproto⟩
  rejHdrlen hres := by
    obtain ⟨hlen, hversion, hproto⟩ := validate_means hres
    obtain ⟨-, hregVersion, hregProto⟩ := extract_ip (m := s.buf) s.regs hlen
    exact ⟨hregVersion.trans hversion, hregProto.trans hproto⟩
  noUdp _ := by simp [extract_reject h, clearUdp]
  accepted hres := absurd hres h

/-- `VX()` writes every one of the fields from the frame, whatever they were (R146). -/
theorem fieldsInv_vx (s : State) : FieldsInv s.vx := by
  by_cases h : validate s.buf s.frameLength = .accept
  · exact fieldsInv_vx_accepted h
  · exact fieldsInv_vx_rejected h

theorem Worked.frameFields {u v : State} (h : Worked u v) : frameFields v.regs = frameFields u.regs := by
  obtain ⟨_, _, _, _, -, rfl⟩ := h
  rfl

theorem fieldsInv_commandResult {s t : State} (h : CommandResult s t) (hs : FieldsInv s) :
    FieldsInv t := by
  cases h with
  | error => exact fieldsInv_of_frameFields hs rfl
  | unparsed hu => exact fieldsInv_of_frameFields hs hu.frameFields
  | parsed modified haccept hu => exact fieldsInv_of_frameFields (fieldsInv_vx s) hu.frameFields

/-- No host write reaches the fields but a soft reset (R24, R194). -/
theorem fieldsInv_writeAccess {s : State} {size : AccessSize} {a : Nat} {d : Word}
    (hl : accessLegal s.cfg size a = true) (hh : s.holds true size a = false) (hs : FieldsInv s) :
    FieldsInv (s.writeAccess size a d) := by
  rcases s.writeAccess_cases size a d hl hh with h | ⟨b, h⟩ | ⟨x, y, h⟩ | ⟨-, h⟩ | ⟨-, h⟩ | ⟨x, y, z, h⟩
  all_goals rw [h]
  case inl => exact fieldsInv_of_frameFields fieldsInv_reset rfl
  all_goals exact fieldsInv_of_frameFields hs rfl

theorem fieldsInv_setRstN {s : State} (level : Bool) (hs : FieldsInv s) :
    FieldsInv (s.setRstN level) := by
  unfold State.setRstN
  split
  · exact hs
  · exact fieldsInv_of_frameFields fieldsInv_reset rfl

theorem fieldsInv_keptByMoves : KeptByMoves FieldsInv where
  outputs _ _ _ hs := fieldsInv_of_frameFields hs rfl
  setRstN := fieldsInv_setRstN
  write _ := fieldsInv_writeAccess
  command _ := fieldsInv_commandResult

/-- Settles O59: the fields' invariant survives every move of an agent. -/
theorem stepKeepsFieldsConsistent : Obligations.StepKeepsFieldsConsistent :=
  fun _ _ hs h => fieldsInv_keptByMoves.step h hs

/-! ### What a command leaves of the other registers -/

theorem CommandResult.frame {s t : State} (h : CommandResult s t) :
    t = { s with regs := t.regs, buf := t.buf, pend := none } ∧ t.regs.done = true := by
  cases h with
  | error => exact ⟨rfl, rfl⟩
  | unparsed hu | parsed _ _ hu =>
    obtain ⟨_, _, _, _, -, rfl⟩ := hu
    exact ⟨rfl, rfl⟩

/-- CTRL and the three parameter registers are read by commands and written by the host alone (R46). -/
theorem CommandResult.parameters {s t : State} (h : CommandResult s t) :
    t.regs.ieDone = s.regs.ieDone ∧ t.regs.ieErr = s.regs.ieErr ∧
      t.regs.frameLen = s.regs.frameLen ∧ t.regs.csumOff = s.regs.csumOff ∧
      t.regs.csumLen = s.regs.csumLen := by
  cases h with
  | error => exact ⟨rfl, rfl, rfl, rfl, rfl⟩
  | unparsed hu =>
    obtain ⟨_, _, _, _, -, rfl⟩ := hu
    exact ⟨rfl, rfl, rfl, rfl, rfl⟩
  | parsed _ _ hu =>
    obtain ⟨_, _, _, _, -, rfl⟩ := hu
    exact ⟨extract_ieDone _ _ _, extract_ieErr _ _ _, extract_frameLen _ _ _, extract_csumOff _ _ _,
      extract_csumLen _ _ _⟩

/-! ### Accesses to the register window -/

section window

variable {s : State} {a : Half}

/-- An aligned read of the register window that is not held. -/
theorem execRd32_register (hreg : a.toNat < 0x100) (hal : a.toNat % 4 = 0)
    (hheld : s.holds false .four a.toNat = false) :
    exec (.rd32 a) s = .next { s with bus := .readDone (s.readReg a.toNat) } := by
  have hl : accessLegal s.cfg .four a.toNat = true := accessLegal_registers hreg hal
  have hread : s.readAccess .four a.toNat = s.readReg a.toNat := by
    rw [State.readAccess, regionOf_registers hreg]
  rcases s.hostRead_cases .four a.toNat with ⟨hl', -⟩ | ⟨-, hheld', -⟩ | ⟨-, -, he⟩
  · simp [hl] at hl'
  · simp [hheld] at hheld'
  · rw [hread] at he
    exact congrArg _ he

/-- An aligned write to the register window of an idle block. -/
theorem execWr32_register (hp : s.pend = none) (hreg : a.toNat < 0x100) (hal : a.toNat % 4 = 0)
    (d : Word) :
    exec (.wr32 a d) s = .next { s.writeReg a.toNat d with bus := .writeDone } := by
  have hwrite : s.writeAccess .four a.toNat d = s.writeReg a.toNat d := by
    rw [State.writeAccess, regionOf_registers hreg]
  have he := State.hostWrite_idle (d := d) hp (accessLegal_registers hreg hal)
  rw [hwrite] at he
  exact congrArg _ he

end window

theorem offset_register (r : RegName) : r.offset.toNat < 0x40 ∧ r.offset.toNat % 4 = 0 := by
  cases r <;> decide

/-- A read of a named register of an idle block. -/
theorem execRd32_offset {s : State} (hp : s.pend = none) (r : RegName) :
    exec (.rd32 r.offset) s = .next { s with bus := .readDone (s.regValue r) } := by
  obtain ⟨hreg, hal⟩ := offset_register r
  rw [execRd32_register (by omega) hal (State.holds_idle hp _ _ _), State.readReg, regAt_offset]

/-- A write to a named register of an idle block. -/
theorem execWr32_offset {s : State} (hp : s.pend = none) (r : RegName) (d : Word) :
    exec (.wr32 r.offset d) s = .next { s.writeNamed d r with bus := .writeDone } := by
  obtain ⟨hreg, hal⟩ := offset_register r
  rw [execWr32_register hp (by omega) hal, State.writeReg, regAt_offset]

/-- A read of ID is never held (R73). -/
theorem execRd32_id (s : State) :
    exec (.rd32 0x0000) s = .next { s with bus := .readDone 0x55544301#32 } := by
  have hheld : s.holds false .four (0x0000 : Half).toNat = false := by simp [State.holds, holdExempt]
  exact execRd32_register (by decide) (by decide) hheld

/-- The reserved offsets (R23). -/
theorem regAt_reserved {a : Nat} (h : 0x40 ≤ a) : regAt a = none := by
  cases hr : regAt a with
  | none => rfl
  | some r =>
    have := regAt_eq_some hr
    have := (offset_register r).1
    omega

/-- A write outside the six writable registers is ignored (R23, R24). -/
theorem writeReg_readOnly (s : State) {a : Nat} (d : Word)
    (h : a ∉ [0x04, 0x08, 0x0C, 0x10, 0x14, 0x18]) : s.writeReg a d = s := by
  unfold State.writeReg
  split
  · next r hr =>
    obtain rfl := regAt_eq_some hr
    cases r
    case ctrl | status | cmd | frameLen | csumOff | csumLen => exact absurd (by decide) h
    all_goals rfl
  · rfl

/-! ### The words a host reads -/

theorem ctrlWord_eq (s : State) :
    s.ctrlWord = BitVec.ofNat 32 (s.regs.ieDone.toNat + 2 * s.regs.ieErr.toNat) := by
  unfold State.ctrlWord
  cases s.regs.ieDone <;> cases s.regs.ieErr <;> decide

theorem setWidth_eq_zero_append (v : Half) : v.setWidth 32 = 0#16 ++ v := by
  rw [BitVec.setWidth_eq_append (by decide)]
  rfl

/-- Bit 3 of STATUS is IRQ (R26, R29). -/
theorem statusWord_irq (s : State) : s.statusWord.getLsbD 3 = s.irq := by
  simp only [State.statusWord, BitVec.getLsbD_append]
  simp

/-- STATUS as a number: each field times the weight of its lowest bit (R26). -/
theorem toNat_statusWord (s : State) :
    s.statusWord.toNat =
      s.busy.toNat + 2 * s.regs.done.toNat + 4 * s.regs.err.toNat + 8 * s.irq.toNat +
      16 * s.regs.errCode.code.toNat + 256 * s.regs.parseRes.code.toNat +
      2048 * s.regs.udpShort.toNat + 4096 * s.regs.csumOk.toNat + 8192 * s.regs.modified.toNat := by
  simp only [State.statusWord, toNat_append_eq, BitVec.toNat_ofBool, BitVec.toNat_ofNat]
  omega

theorem toNat_busy (s : State) : s.busy.toNat = if s.pend = none then 0 else 1 := by
  unfold State.busy
  cases s.pend <;> rfl

/-! ### The statements -/

/-- Settles O20: the read is never held, and STATUS is a sum of fields. -/
theorem statusReadLayout : Obligations.StatusReadLayout := by
  intro s
  refine ⟨s.statusWord, execRd32_status s, ?_⟩
  rw [toNat_statusWord, toNat_busy]
  congr 6
  · cases s.regs.errCode <;> rfl
  · cases s.regs.parseRes <;> rfl

/-- Settles O24: the write is performed, and a read-only register or a reserved offset ignores it. -/
theorem readOnlyRegistersIgnoreWrites : Obligations.ReadOnlyRegistersIgnoreWrites := by
  intro s a d hp hreg hal hro
  rw [execWr32_register hp hreg hal, writeReg_readOnly s d hro]

/-- Settles O49: every end of a command keeps the registers that the host alone writes. -/
theorem commandsKeepParameterRegisters : Obligations.CommandsKeepParameterRegisters := by
  intro i hi s
  obtain ⟨t, he, hres⟩ := command_result hi s
  obtain ⟨hframe, hdone⟩ := hres.frame
  obtain ⟨hieDone, hieErr, hlen, hoff, hn⟩ := hres.parameters
  exact ⟨t, he, hframe, hdone, hieDone, hieErr, hlen, hoff, hn, execRd32_id t⟩

/-- Settles O19: a read of ID is never held, and ID is read-only. -/
theorem idIsConstant : Obligations.IdIsConstant :=
  fun s => ⟨execRd32_id s, fun d hp => execWr32_offset hp .id d⟩

/-- Settles O21: the definition of IRQ, and its bit of STATUS. -/
theorem irqIsDerived : Obligations.IrqIsDerived := by
  intro s
  refine ⟨?_, s.statusWord, execRd32_status s, statusWord_irq s⟩
  rw [State.irq, Bool.or_eq_true, Bool.and_eq_true, Bool.and_eq_true]

/-- Settles O22: a read of each named register, and of an offset that names none. -/
theorem registerReads : Obligations.RegisterReads := by
  intro s hp
  have half (r : RegName) (v : Half) (hv : s.regValue r = v.setWidth 32) :
      exec (.rd32 r.offset) s = .next { s with bus := .readDone (0#16 ++ v) } := by
    rw [execRd32_offset hp, hv, setWidth_eq_zero_append]
  refine ⟨?_, execRd32_offset hp .cmd, half .frameLen _ rfl, half .csumOff _ rfl, half .csumLen _ rfl,
    half .csumResult _ rfl, half .csumSum _ rfl, execRd32_offset hp .ipInfo, execRd32_offset hp .ipSrc,
    execRd32_offset hp .ipDst, execRd32_offset hp .udpPorts, execRd32_offset hp .udpInfo,
    execRd32_offset hp .payload, execRd32_offset hp .hdrInfo, fun a hlow hreg hal => ?_⟩
  · rw [← ctrlWord_eq]
    exact execRd32_offset hp .ctrl
  · rw [execRd32_register hreg hal (State.holds_idle hp _ _ _), State.readReg, regAt_reserved hlow]

/-- Settles O23: a write to each parameter register, whose low half is the second half of the data. -/
theorem parameterRegisterWrites : Obligations.ParameterRegisterWrites := by
  intro s hi lo hp
  have hlow : (hi ++ lo).extractLsb' 0 16 = lo := BitVec.extractLsb'_append_eq_right
  have hwrites (r : RegName) := execWr32_offset hp r (hi ++ lo)
  have hlen := hwrites .frameLen
  have hoff := hwrites .csumOff
  have hn := hwrites .csumLen
  simp only [State.writeNamed, hlow] at hlen hoff hn
  exact ⟨hlen, hoff, hn⟩

end Sys2Proof.Machine
end

section
/-! PROOF. The agents: which step performs what is presented or pending, and that a pending command leaves PEND
within its latency, so that the loop `wait` ends. -/

namespace Sys2Proof.Machine

open Sys2Proof.Safety

/-! ### The step that comes next -/

theorem State.engineStep_of_decode {w : Word} {i : Instr} (h : decodeCommand w = .ok i) (s : State) :
    s.engineStep w = exec i s := by
  unfold State.engineStep
  rw [h]

theorem State.busAccess_of_decode {t : BitVec 51} {i : Instr} (h : decodeAccess t = .ok i) (s : State) :
    s.busAccess t = exec i s := by
  unfold State.busAccess
  rw [h]

section step

variable {s : State} {e : HostEvent} {rest : List HostEvent}

/-- The engine's turn (R72). -/
theorem step_engineTurn {w : Word} (hr : s.rstN = true) (hp : s.pend = some w) (ht : EngineTurn s) :
    step s = { s with bus := engineBus s }.engineStep w :=
  State.agentStep_engineTurn hr hp ht

theorem step_idle (hr : s.rstN = true) (hp : s.pend = none) (hh : s.host = []) : step s = .next s := by
  simp [step, State.agentStep, State.stepIdle, hr, hp, hh]

/-- The engine is idle: the host moves at once. -/
theorem step_host_idle (hr : s.rstN = true) (hp : s.pend = none) (hh : s.host = e :: rest) :
    step s = { s with host := rest }.hostStep e := by
  simp [step, State.agentStep, State.stepIdle, hr, hp, hh]

/-- Latency is left and nothing holds the event: the host moves first. -/
theorem step_host_busy {w : Word} {n : Nat} (hr : s.rstN = true) (hp : s.pend = some w)
    (hh : s.host = e :: rest) (he : s.eventHeld e = false) (hd : s.delay = n + 1) :
    step s = { s with host := rest, delay := n }.hostStep e := by
  simp [step, State.agentStep, State.stepBusy, hr, hp, hh, he, hd]

/-- Latency is left and another master's access stands behind a held one: it goes ahead (log entry 14). -/
theorem step_overtaking {w : Word} {t : BitVec 51} {n : Nat} (hr : s.rstN = true) (hp : s.pend = some w)
    (hh : s.host = e :: .other t :: rest) (he : s.eventHeld e = true)
    (ht : s.eventHeld (.other t) = false) (hd : s.delay = n + 1) :
    step s = { s with host := e :: rest, delay := n }.busAccess t := by
  simp [step, State.agentStep, State.stepBusy, State.overtaking, hr, hp, hh, he, ht, hd]

end step

theorem State.hostStep_presents {e : HostEvent} {t : BitVec 51} (h : Presents e t) (s : State) :
    s.hostStep e = s.busAccess t := by
  obtain rfl | rfl := h <;> rfl

/-- Settles O5: the engine's turn, for a word that decodes. -/
theorem stepPerformsPendingCommand : Obligations.StepPerformsPendingCommand := by
  intro s w i hr hp hdec ht
  rw [step_engineTurn hr hp ht, State.engineStep_of_decode hdec]

/-- Settles O6: the three ways in which an access comes next, for a tuple that decodes. -/
theorem stepPerformsHostAccess : Obligations.StepPerformsHostAccess := by
  refine ⟨fun s e t rest i hr hpres hh hdec => ⟨fun hp => ?_, fun w d hp he hd => ?_⟩, ?_⟩
  · rw [step_host_idle hr hp hh, State.hostStep_presents hpres, State.busAccess_of_decode hdec]
  · rw [step_host_busy hr hp hh he hd, State.hostStep_presents hpres, State.busAccess_of_decode hdec]
  · intro s e t rest i w d hr hh hdec hp he ht hd
    rw [step_overtaking hr hp hh he ht hd, State.busAccess_of_decode hdec]

/-- Settles O10: with the engine idle and nothing presented, neither agent moves. -/
theorem idleBlockKeepsItsState : Obligations.IdleBlockKeepsItsState :=
  fun _ => step_idle

/-! ### A pending command within its latency -/

/-- The soft reset that a write to CTRL performs, after `s` (R194). -/
def CancelledBySoftReset (s u : State) : Prop :=
  u = { s with
    regs := Regs.reset, pend := none, bus := .writeDone
    host := u.host, delay := u.delay }

/-- The fall of `rst_n`, after `s` (R240). -/
def CancelledByHardwareReset (s u : State) : Prop :=
  u = { State.reset with cfg := s.cfg, host := u.host, issued := s.issued, rstN := false }

/-- The engine's step from `s` to `u` performs the pending word: the command it stands for, or
E_ILLEGAL_CMD (R92, R196). -/
def PerformedByEngine (w : Word) (s u : State) : Prop :=
  (∃ i, decode (.command w) = .ok i ∧ step s = exec i { s with bus := engineBus s }) ∨
    ((∀ i, decode (.command w) ≠ .ok i) ∧ u = { raised s .illegalCmd with bus := engineBus s })

/-- The step from `s` to `u` empties PEND, in one of the four ways. -/
def EmptiesPend (w : Word) (s u : State) : Prop :=
  step s = .next u ∧ u.pend = none ∧
    (PerformedByEngine w s u ∨ CancelledBySoftReset s u ∨ CancelledByHardwareReset s u)

/-- The host's move from `s` to `t` leaves the pending command alone, or cancels it. -/
def SparesOrCancels (s t : State) : Prop :=
  (t.pend = s.pend ∧ t.rstN = s.rstN ∧ t.delay = s.delay) ∨
    (t.pend = none ∧ (CancelledBySoftReset s t ∨ CancelledByHardwareReset s t))

/-- The engine's step empties PEND, and what the host presents stays. -/
theorem step_engineTurn_emptiesPend {s : State} {w : Word} (hr : s.rstN = true)
    (hp : s.pend = some w) (ht : EngineTurn s) :
    ∃ u, EmptiesPend w s u ∧ u.rstN = true ∧ u.host = s.host := by
  have hstep := step_engineTurn hr hp ht
  cases hdec : decodeCommand w with
  | ok i =>
    rw [State.engineStep_of_decode hdec] at hstep
    obtain ⟨u, he, hres⟩ := command_result (decodeCommand_mem hdec) { s with bus := engineBus s }
    obtain ⟨hu, -⟩ := hres.frame
    refine ⟨u, ⟨hstep.trans he, ?_, .inl (.inl ⟨i, hdec, hstep⟩)⟩, ?_⟩
    · rw [hu]
    · rw [hu]; exact ⟨hr, rfl⟩
  | error r =>
    have hnone (i : Instr) : decode (.command w) ≠ .ok i := by simp [decode, hdec]
    unfold State.engineStep at hstep
    rw [hdec] at hstep
    exact ⟨_, ⟨hstep, rfl, .inl (.inr ⟨hnone, rfl⟩)⟩, hr, rfl⟩

/-- The one write that is performed while a command is pending is to CTRL (R73). -/
theorem writeAccess_sparesOrCancels {s : State} {w : Word} {size : AccessSize} {a : Nat} {d : Word}
    (hp : s.pend = some w) (hl : accessLegal s.cfg size a = true) (hh : s.holds true size a = false) :
    SparesOrCancels s { s.writeAccess size a d with bus := .writeDone } := by
  rcases s.writeAccess_cases size a d hl hh with h | ⟨b, h⟩ | ⟨x, y, h⟩ | ⟨hidle, -⟩ | ⟨hidle, -⟩ |
    ⟨x, y, z, h⟩
  · rw [h]; exact .inr ⟨rfl, .inl rfl⟩
  · rw [h]; exact .inl ⟨rfl, rfl, rfl⟩
  · rw [h]; exact .inl ⟨rfl, rfl, rfl⟩
  · simp [hp] at hidle
  · simp [hp] at hidle
  · rw [h]; exact .inl ⟨rfl, rfl, rfl⟩

theorem busAccess_sparesOrCancels {s : State} {w : Word} (hp : s.pend = some w) (b : BitVec 51) :
    ∃ t, s.busAccess b = .next t ∧ SparesOrCancels s t := by
  rcases s.busAccess_cases b with ⟨r, he⟩ | ⟨size, a, d, hl, hh, he⟩
  · exact ⟨_, he, .inl ⟨rfl, rfl, rfl⟩⟩
  · exact ⟨_, he, writeAccess_sparesOrCancels hp hl hh⟩

/-- A level 1 of `rst_n` changes nothing, and its fall is a hardware reset (R240). -/
theorem setRstN_sparesOrCancels {s : State} (hr : s.rstN = true) (level : Bool) :
    SparesOrCancels s (s.setRstN level) := by
  cases level with
  | false => exact .inr ⟨rfl, .inr rfl⟩
  | true => simp [State.setRstN, hr, SparesOrCancels]

theorem hostStep_sparesOrCancels {s : State} {w : Word} (hr : s.rstN = true) (hp : s.pend = some w)
    (e : HostEvent) : ∃ t, s.hostStep e = .next t ∧ SparesOrCancels s t := by
  rcases s.hostStep_cases e with ⟨l, -, he⟩ | ⟨r, h, he⟩ | ⟨size, a, d, hl, hh, he⟩
  · exact ⟨_, he, setRstN_sparesOrCancels hr l⟩
  · exact ⟨_, he, .inl ⟨rfl, rfl, rfl⟩⟩
  · exact ⟨_, he, writeAccess_sparesOrCancels hp hl hh⟩

/-- A host move, from the state with its event off the list and one step of the latency used up. -/
theorem step_of_sparesOrCancels {s t : State} {w : Word} {host : List HostEvent} {n : Nat}
    (hr : s.rstN = true) (hp : s.pend = some w) (hd : s.delay = n + 1) (hstep : step s = .next t)
    (h : SparesOrCancels { s with host := host, delay := n } t) :
    EmptiesPend w s t ∨ (t.pend = some w ∧ t.rstN = true ∧ s.delay = t.delay + 1) := by
  obtain ⟨hpend, hrst, hdelay⟩ | ⟨hpend, hcancel⟩ := h
  · exact .inr ⟨hpend.trans hp, hrst.trans hr, hdelay ▸ hd⟩
  · exact .inl ⟨hstep, hpend, .inr hcancel⟩

/-- While a command is pending, each step empties PEND or uses up one step of the latency. -/
theorem step_pending {s : State} {w : Word} (hr : s.rstN = true) (hp : s.pend = some w) :
    ∃ t, step s = .next t ∧
      (EmptiesPend w s t ∨ (t.pend = some w ∧ t.rstN = true ∧ s.delay = t.delay + 1)) := by
  rcases s.agentStep_cases with ⟨hr', -⟩ | ⟨-, hp', -⟩ | ⟨_, _, -, hp', -⟩ | ⟨_, -, -, ht, -⟩ |
    ⟨_, e, rest, n, -, -, -, -, hd, he⟩ | ⟨_, e, b, rest, n, -, -, -, -, -, hd, he⟩
  · simp [hr] at hr'
  · simp [hp] at hp'
  · simp [hp] at hp'
  · obtain ⟨u, hu, -⟩ := step_engineTurn_emptiesPend hr hp ht
    exact ⟨u, hu.1, .inl hu⟩
  · obtain ⟨t, hstep, h⟩ := hostStep_sparesOrCancels (s := { s with host := rest, delay := n }) hr hp e
    exact ⟨t, he.trans hstep, step_of_sparesOrCancels hr hp hd (he.trans hstep) h⟩
  · obtain ⟨t, hstep, h⟩ := busAccess_sparesOrCancels (s := { s with host := e :: rest, delay := n }) hp b
    exact ⟨t, he.trans hstep, step_of_sparesOrCancels hr hp hd (he.trans hstep) h⟩

theorem Core.run_succ {M : Host.Core} {s t : M.State} (h : M.step s = .next t) (k : Nat) :
    M.run (k + 1) s = M.run k t := by
  rw [Host.Core.run, h]

theorem run_succ {s t : State} (h : step s = .next t) (k : Nat) :
    Host.Core.run core (k + 1) s = Host.Core.run core k t :=
  Core.run_succ (M := core) h k

/-- The latency bounds how long a command is pending (R72). -/
theorem run_emptiesPend (n : Nat) {s : State} {w : Word} (hr : s.rstN = true) (hp : s.pend = some w)
    (hd : s.delay = n) :
    ∃ k t u, k ≤ n ∧ Host.Core.run core k s = .next t ∧ t.pend = some w ∧ EmptiesPend w t u := by
  induction n generalizing s with
  | zero =>
    obtain ⟨u, hu, -⟩ := step_engineTurn_emptiesPend hr hp (.inr (.inl hd))
    exact ⟨0, s, u, le_rfl, rfl, hp, hu⟩
  | succ n ih =>
    obtain ⟨t, hstep, hu | ⟨hp', hr', hd'⟩⟩ := step_pending hr hp
    · exact ⟨0, s, t, Nat.zero_le _, rfl, hp, hu⟩
    · obtain ⟨k, t', u, hk, hrun, hpend, hu⟩ := ih hr' hp' (by omega)
      exact ⟨k + 1, t', u, by omega, (run_succ hstep k).trans hrun, hpend, hu⟩

/-! ### The loop `wait` -/

/-- A turn of `wait` is never held: it reads STATUS (R73). -/
theorem eventHeld_wait (s : State) : s.eventHeld .wait = false := by
  simp [State.eventHeld, HostEvent.tuple, decodeAccess_waitTuple, State.holdsInstr, State.holds,
    holdExempt]

/-- `wait` has ended: it is off the list, no command is pending, and its last read showed BUSY = 0 (R97). -/
def WaitEnded (rest : List HostEvent) (t : State) : Prop :=
  t.pend = none ∧ t.host = rest ∧ ∃ v : Word, t.bus = .readDone v ∧ v.getLsbD 0 = false

/-- With no command pending, one turn ends the loop. -/
theorem step_wait_idle {s : State} {rest : List HostEvent} (hr : s.rstN = true)
    (hh : s.host = .wait :: rest) (hp : s.pend = none) :
    ∃ t, step s = .next t ∧ WaitEnded rest t := by
  have hdone := waitDone_statusWord { s with host := rest }
  rw [step_host_idle hr hp hh, State.hostStep_wait]
  refine ⟨_, rfl, hp, if_pos hp, _, rfl, ?_⟩
  simpa [waitDone, hp] using hdone

/-- Each turn before the command's end uses up one step of its latency; then come the engine's step and one
more turn. -/
theorem run_waitEnded (n : Nat) {s : State} {w : Word} {rest : List HostEvent} (hr : s.rstN = true)
    (hh : s.host = .wait :: rest) (hp : s.pend = some w) (hd : s.delay = n) :
    ∃ k t, k ≤ n + 2 ∧ Host.Core.run core k s = .next t ∧ WaitEnded rest t := by
  induction n generalizing s with
  | zero =>
    obtain ⟨u, ⟨hstep, hpend, -⟩, hrst, hhost⟩ := step_engineTurn_emptiesPend hr hp (.inr (.inl hd))
    obtain ⟨t, hstep', ht⟩ := step_wait_idle hrst (hhost.trans hh) hpend
    exact ⟨2, t, le_rfl, (run_succ hstep 1).trans (run_succ hstep' 0), ht⟩
  | succ n ih =>
    have hturn := step_host_busy hr hp hh (eventHeld_wait s) hd
    rw [State.hostStep_wait, if_neg (by simp [hp])] at hturn
    obtain ⟨k, t, hk, hrun, ht⟩ := ih (s := { s with host := .wait :: rest, delay := n, bus := _ })
      hr rfl hp rfl
    exact ⟨k + 1, t, by omega, (run_succ hturn k).trans hrun, ht⟩

/-- Settles O9: the latency bounds both the pending command and the loop. -/
theorem pendingCommandLeavesPend : Obligations.PendingCommandLeavesPend := by
  constructor
  · intro s w hr hp
    obtain ⟨k, t, u, hk, hrun, hpend, hstep, hempty, hways⟩ := run_emptiesPend s.delay hr hp rfl
    exact ⟨k, t, u, hk, hrun, hpend, hstep, hempty, or_assoc.1 hways⟩
  · intro s rest hr hh
    cases hp : s.pend with
    | none =>
      obtain ⟨t, hstep, ht⟩ := step_wait_idle hr hh hp
      exact ⟨1, t, by omega, run_succ hstep 0, ht⟩
    | some w => exact run_waitEnded s.delay hr hh hp rfl

end Sys2Proof.Machine
end

section
/-! PROOF. Host accesses to the frame buffer: the hold while the engine is busy, the lanes of reads and writes,
and a store read back. -/

namespace Sys2Proof.Machine

open Sys2Proof.Safety

/-! ### The accesses of the three sizes -/

/-- The read of each size (R197). -/
def readInstr : AccessSize → Half → Instr
  | .one, a => .rd8 a
  | .two, a => .rd16 a
  | .four, a => .rd32 a

/-- The write of each size (R198). -/
def writeInstr : AccessSize → Half → Word → Instr
  | .one, a, d => .wr8 a d
  | .two, a, d => .wr16 a d
  | .four, a, d => .wr32 a d

section access

variable {s : State} {size : AccessSize} {a : Half} {d d' : Word} {o : Nat}

theorem exec_readInstr : exec (readInstr size a) s = .next (s.hostRead size a.toNat) := by
  cases size <;> rfl

theorem exec_writeInstr : exec (writeInstr size a d) s = .next (s.hostWrite size a.toNat d) := by
  cases size <;> rfl

/-! ### The hold (R73) -/

theorem State.holds_busy {write : Bool} {n : Nat} (hp : s.pend ≠ none)
    (hl : accessLegal s.cfg size n = true) (he : holdExempt write n = false) :
    s.holds write size n = true := by
  simp [State.holds, State.busy, Option.isSome_iff_ne_none.2 hp, hl, he]

/-- The exempt accesses are to registers, which a legal narrow access does not reach (R64). -/
theorem holdExempt_narrow {p : Params} {n : Nat} (hsize : size ≠ .four)
    (hl : accessLegal p size n = true) (write : Bool) : holdExempt write n = false := by
  have hn : 0x100 ≤ n := by
    by_contra hlow
    simp [accessLegal, regionOf_registers (Nat.not_le.1 hlow), hsize] at hl
  cases write <;> simp [holdExempt] <;> omega

theorem exec_readInstr_held (hp : s.pend ≠ none) (hl : ¬BusErrorAt s.cfg size.bytes a.toNat)
    (he : holdExempt false a.toNat = false) :
    exec (readInstr size a) s = .next { s with bus := .held } := by
  have hl := accessLegal_iff.2 hl
  rw [exec_readInstr, State.hostRead, if_neg (by simp [hl]), if_pos (State.holds_busy hp hl he)]
  rfl

theorem exec_writeInstr_held (hp : s.pend ≠ none) (hl : ¬BusErrorAt s.cfg size.bytes a.toNat)
    (he : holdExempt true a.toNat = false) :
    exec (writeInstr size a d) s = .next { s with bus := .held } := by
  have hl := accessLegal_iff.2 hl
  rw [exec_writeInstr, State.hostWrite, if_neg (by simp [hl]), if_pos (State.holds_busy hp hl he)]
  rfl

theorem exec_narrow_held (hp : s.pend ≠ none) (hsize : size ≠ .four)
    (hl : ¬BusErrorAt s.cfg size.bytes a.toNat) :
    exec (readInstr size a) s = .next { s with bus := .held } ∧
      exec (writeInstr size a d) s = .next { s with bus := .held } :=
  have hexempt := holdExempt_narrow hsize (accessLegal_iff.2 hl)
  ⟨exec_readInstr_held hp hl (hexempt false), exec_writeInstr_held hp hl (hexempt true)⟩

/-! ### The buffer of an idle block -/

theorem exec_readInstr_buffer (hp : s.pend = none) (ha : a.toNat = 0x1000 + o)
    (ho : o < s.cfg.bufCap) (hal : o % size.bytes = 0) :
    exec (readInstr size a) s = .next { s with bus := .readDone (bufferRead s.buf size o) } := by
  have hl : accessLegal s.cfg size (0x1000 + o) = true := by simpa [accessLegal_buffer ho] using hal
  rw [exec_readInstr, ha, State.hostRead_idle hp hl, State.readAccess, regionOf_buffer ho]

theorem exec_writeInstr_buffer (hp : s.pend = none) (ha : a.toNat = 0x1000 + o)
    (ho : o < s.cfg.bufCap) (hal : o % size.bytes = 0) :
    exec (writeInstr size a d) s =
      .next { s with buf := bufferWrite s.buf size o d, bus := .writeDone } := by
  have hl : accessLegal s.cfg size (0x1000 + o) = true := by simpa [accessLegal_buffer ho] using hal
  rw [exec_writeInstr, ha, State.hostWrite_idle hp hl, State.writeAccess, regionOf_buffer ho]

/-- A narrow write depends on its data only through the buffer bytes it stores: it never reaches a register
(R64). -/
theorem exec_writeInstr_congr (hsize : size ≠ .four)
    (h : ∀ m off, bufferWrite m size off d = bufferWrite m size off d') :
    exec (writeInstr size a d) s = exec (writeInstr size a d') s := by
  have hwrite (hl : accessLegal s.cfg size a.toNat = true) :
      s.writeAccess size a.toNat d = s.writeAccess size a.toNat d' := by
    unfold State.writeAccess
    unfold accessLegal at hl
    split
    · next hreg => simp [hreg, hsize] at hl
    · rw [h]
    · rfl
  rw [exec_writeInstr, exec_writeInstr, State.hostWrite, State.hostWrite]
  by_cases hl : accessLegal s.cfg size a.toNat = true
  · rw [hwrite hl]
  · rw [Bool.not_eq_true] at hl
    rw [if_pos hl, if_pos hl]

end access

/-! ### The lanes (R61) -/

theorem toNat_be16_eq_num16 (m : Memory) (a : Nat) : (m.be16 a).toNat = num16 m a := m.toNat_be16 a

theorem toNat_be32_eq_num32 (m : Memory) (a : Nat) : (m.be32 a).toNat = num32 m a := by
  rw [Memory.be32, toNat_append_eq, toNat_be16_eq_num16, toNat_be16_eq_num16]
  rfl

/-- The two halves of a stored word, read back. -/
theorem Memory.be16_put32 (m : Memory) (a : Nat) (v : Word) :
    (m.put32 a v).be16 a = v.extractLsb' 16 16 ∧ (m.put32 a v).be16 (a + 2) = v.extractLsb' 0 16 := by
  have hkept (c : Nat) (hc : c < a + 2) (w : Half) (m' : Memory) :
      (m'.put16 (a + 2) w).read c = m'.read c := by
    rw [Memory.read_put16, if_neg (by omega), if_neg (by omega)]
  unfold Memory.put32
  constructor
  · exact (Memory.be16_congr (hkept a (by omega) _ _) (hkept (a + 1) (by omega) _ _)).trans
      (m.be16_put16 a _)
  · exact Memory.be16_put16 _ _ _

theorem Memory.be32_put32 (m : Memory) (a : Nat) (v : Word) : (m.put32 a v).be32 a = v := by
  obtain ⟨hhigh, hlow⟩ := m.be16_put32 a v
  rw [Memory.be32, hhigh, hlow]
  exact (BitVec.extractLsb'_append_extractLsb'_eq_extractLsb' rfl).trans BitVec.extractLsb'_eq_self

/-- Settles O11: a narrow access is never exempt, and a word access is not at the other offsets. -/
theorem busyHoldsAccesses : Obligations.BusyHoldsAccesses := by
  intro s a d hp
  refine ⟨exec_narrow_held (size := .one) hp nofun, exec_narrow_held (size := .two) hp nofun,
    fun hl hid hstatus => exec_readInstr_held (size := .four) hp hl ?_,
    fun hl hctrl => exec_writeInstr_held (size := .four) hp hl ?_⟩
  · simp [holdExempt, hid, hstatus]
  · simp [holdExempt, hctrl]

/-- Settles O26: the read is performed, and its data is the number of its bytes. -/
theorem bufferReadLanes : Obligations.BufferReadLanes := by
  intro s a o hp ha ho
  refine ⟨⟨_, exec_readInstr_buffer (size := .one) hp ha ho (Nat.mod_one o), ?_⟩,
    fun hal => ⟨_, exec_readInstr_buffer (size := .two) hp ha ho hal, ?_⟩,
    fun hal => ⟨_, exec_readInstr_buffer (size := .four) hp ha ho hal, toNat_be32_eq_num32 s.buf o⟩⟩
  · exact BitVec.toNat_setWidth_of_le (by decide)
  · exact (BitVec.toNat_setWidth_of_le (by decide)).trans (toNat_be16_eq_num16 s.buf o)

/-- Settles O27: the write is performed, and each store leaves its bytes. -/
theorem bufferWriteLanes : Obligations.BufferWriteLanes := by
  intro s a d o hp ha ho
  refine ⟨⟨_, exec_writeInstr_buffer (size := .one) hp ha ho (Nat.mod_one o), rfl, fun c => ?_⟩,
    fun hal => ⟨_, exec_writeInstr_buffer (size := .two) hp ha ho hal, rfl, fun c => ?_⟩,
    fun hal => ⟨_, exec_writeInstr_buffer (size := .four) hp ha ho hal, rfl,
      fun c => s.buf.read_put32 o c d⟩⟩
  · exact s.buf.read_write o c _
  · have hbytes := s.buf.read_put16 o c (d.extractLsb' 0 16)
    rwa [BitVec.extractLsb'_extractLsb'_of_le (by decide),
      BitVec.extractLsb'_extractLsb'_of_le (by decide)] at hbytes

/-- Settles O28: a narrow store takes only its lanes of the data. -/
theorem narrowWritesIgnoreOtherLanes : Obligations.NarrowWritesIgnoreOtherLanes := by
  intro s a d d'
  constructor
  · intro h
    exact exec_writeInstr_congr (size := .one) nofun fun m off => congrArg (m.write off) h
  · intro h
    exact exec_writeInstr_congr (size := .two) nofun fun m off => congrArg (m.put16 off) h

theorem bufferRead_one (m : Memory) (off : Nat) : bufferRead m .one off = 0#24 ++ m.read off := by
  rw [bufferRead, BitVec.setWidth_eq_append (by decide)]
  rfl

theorem bufferRead_two (m : Memory) (off : Nat) : bufferRead m .two off = 0#16 ++ m.be16 off :=
  setWidth_eq_zero_append _

/-- A read inside a word that an aligned store left: the word lies inside the buffer, since the capacity is
divisible by 4. -/
theorem exec_readInstr_stored {s : State} {size : AccessSize} {a b : Half} {d v : Word} {o : Nat}
    (hcfg : s.cfg.Legal) (hp : s.pend = none) (ha : a.toNat = 0x1000 + o) (ho : o < s.cfg.bufCap)
    (hal : o % 4 = 0) (k : Nat) (hk : k < 4) (hb : b = a + BitVec.ofNat 16 k)
    (hsize : k % size.bytes = 0) (hv : bufferRead (s.buf.put32 o d) size (o + k) = v) :
    exec (readInstr size b) { s with buf := s.buf.put32 o d, bus := .writeDone } =
      .next { s with buf := s.buf.put32 o d, bus := .readDone v } := by
  obtain ⟨-, hcap, hcap4⟩ := hcfg
  have haddr : b.toNat = 0x1000 + (o + k) := by
    rw [hb, BitVec.toNat_add, BitVec.toNat_ofNat, ha]
    omega
  have hoff : o + k < s.cfg.bufCap := by omega
  have hal' : (o + k) % size.bytes = 0 := by
    cases size <;> simp only [AccessSize.bytes] at * <;> omega
  rw [← hv]
  exact exec_readInstr_buffer (s := { s with buf := s.buf.put32 o d, bus := .writeDone }) hp haddr hoff
    hal'

/-- Settles O29: each part of the word is read from the bytes that the store left. -/
theorem bufferWriteReadsBack : Obligations.BufferWriteReadsBack := by
  intro s a d o hcfg hp ha ho hal
  have reads {size b v} := exec_readInstr_stored (size := size) (b := b) (d := d) (v := v) hcfg hp ha ho hal
  have ha₀ : a = a + BitVec.ofNat 16 0 := by simp
  have byte (k : Nat) {x : Byte} (hx : (s.buf.put32 o d).read (o + k) = x) :
      bufferRead (s.buf.put32 o d) .one (o + k) = 0#24 ++ x := hx ▸ bufferRead_one _ _
  obtain ⟨hhigh, hlow⟩ := s.buf.be16_put32 o d
  refine ⟨_, exec_writeInstr_buffer (size := .four) hp ha ho hal,
    reads (size := .four) 0 (by decide) ha₀ rfl (s.buf.be32_put32 o d),
    reads (size := .two) 0 (by decide) ha₀ rfl (hhigh ▸ bufferRead_two _ _),
    reads (size := .two) 2 (by decide) rfl rfl (hlow ▸ bufferRead_two _ _),
    reads (size := .one) 0 (by decide) ha₀ rfl (byte 0 ?_),
    reads (size := .one) 1 (by decide) rfl rfl (byte 1 ?_),
    reads (size := .one) 2 (by decide) rfl rfl (byte 2 ?_),
    reads (size := .one) 3 (by decide) rfl rfl (byte 3 ?_)⟩
  all_goals simp [Memory.read_put32]

end Sys2Proof.Machine
end

section
/-! PROOF. Commands and the frame: a command stores inside the frame only, what it leaves there and in the
registers depends on the registers and the frame only, and PARSE reports the source address that the buffer
holds. -/

namespace Sys2Proof.Machine

open Sys2Proof.Safety

/-! ### The frame of an accepted header -/

/-- The locals that `VX()` binds, for an accepted frame of `len` bytes: the header holds its fixed fields, and
the `rem` bytes after it end the frame (R140, R143). -/
def Splits (len h rem : Nat) : Prop := 20 ≤ h ∧ h + rem = len

theorem splits_of_accept {m : Memory} {len : Nat} (h : validate m len = .accept) :
    Splits len (headerLength m) (len - headerLength m) := by
  obtain ⟨-, -, -, hihl, hlen⟩ := validate_eq_accept.1 h
  rw [headerLength_eq]
  unfold Splits
  unfold hdr at *
  omega

/-! ### Stores stay inside the frame -/

/-- From `s` to `t` no byte at or beyond the offset `n` changes. -/
def KeepsFrom (n : Nat) (s t : State) : Prop := ∀ c, n ≤ c → t.buf.read c = s.buf.read c

section keepsFrom

variable {n : Nat} {s t u : State}

theorem KeepsFrom.trans (h₁ : KeepsFrom n s t) (h₂ : KeepsFrom n t u) : KeepsFrom n s u :=
  fun c hc => (h₂ c hc).trans (h₁ c hc)

theorem KeepsFrom.of_buf (h : t.buf = s.buf) : KeepsFrom n s t := fun _ _ => by rw [h]

theorem keepsFrom_swapEndpoints {h rem : Nat} (hn : Splits n h rem) : KeepsFrom n s (s.swapEndpoints h rem) := by
  obtain ⟨hhdr, hlen⟩ := hn
  intro c hc
  rw [State.swapEndpoints_buf, read_swapPorts, if_neg (by omega), if_neg (by omega), read_swapAddresses,
    if_neg (by omega), if_neg (by omega)]

theorem keepsFrom_dropUdpChecksum {h rem : Nat} (hn : Splits n h rem) :
    KeepsFrom n s (s.dropUdpChecksum h rem) := by
  obtain ⟨hhdr, hlen⟩ := hn
  intro c hc
  rw [State.dropUdpChecksum_buf, read_clearUdpChecksum, if_neg (by omega)]

/-- Bytes 10 and 11 are all that the recompute stores (R116). -/
theorem read_rewriteHeaderChecksum (s : State) (h c : Nat) (hc : c ≠ 10 ∧ c ≠ 11) :
    (s.rewriteHeaderChecksum h).buf.read c = s.buf.read c := by
  simp [State.rewriteHeaderChecksum, Memory.read_put16, hc]

theorem keepsFrom_rewriteHeaderChecksum {h rem : Nat} (hn : Splits n h rem) :
    KeepsFrom n s (s.rewriteHeaderChecksum h) := by
  obtain ⟨hhdr, hlen⟩ := hn
  exact fun c hc => read_rewriteHeaderChecksum s h c (by omega)

theorem keepsFrom_frameCommand {f : State → Nat → Nat → State} {g : State → State}
    (hf : ∀ h rem, Splits s.frameLength h rem → KeepsFrom s.frameLength s.vx (f s.vx h rem))
    (hg : (g s.vx).buf = s.vx.buf) : KeepsFrom s.frameLength s (s.frameCommand f g) := by
  by_cases hlen : s.frameLength ≤ s.cfg.bufCap
  · by_cases hv : validate s.buf s.frameLength = .accept
    · rw [State.frameCommand_accept hlen hv]
      exact hf _ _ (splits_of_accept hv)
    · rw [State.frameCommand_reject hlen hv]
      exact .of_buf hg
  · rw [State.frameCommand_lenRange (Nat.not_le.1 hlen)]
    exact .of_buf rfl

end keepsFrom

theorem execCsum_buf {s t : State} (h : execCsum s = .next t) : t.buf = s.buf := by
  unfold execCsum at h
  split at h
  · cases h; rfl
  · split at h <;> cases h <;> rfl

/-- The stores of SWAP, HDRCSUM and ECHO lie inside an accepted frame, and no other command stores. -/
theorem keepsFrom_command {i : Instr} {s t : State} (hi : i ∈ commands) (h : exec i s = .next t) :
    KeepsFrom s.frameLength s t := by
  cases i
  case nop => cases h; exact .of_buf rfl
  case csum => exact .of_buf (execCsum_buf h)
  case parse => cases h; exact keepsFrom_frameCommand (fun _ _ _ => .of_buf rfl) rfl
  case swap =>
    cases h
    exact keepsFrom_frameCommand (fun _ _ hn => .trans (keepsFrom_swapEndpoints hn) (.of_buf rfl)) rfl
  case hdrcsum =>
    cases h
    exact keepsFrom_frameCommand
      (fun _ _ hn => .trans (keepsFrom_rewriteHeaderChecksum hn) (.of_buf rfl)) rfl
  case verify => cases h; exact keepsFrom_frameCommand (fun _ _ _ => .of_buf rfl) rfl
  case echo =>
    cases h
    exact keepsFrom_frameCommand
      (fun _ _ hn => .trans (keepsFrom_swapEndpoints hn) <| .trans (keepsFrom_dropUdpChecksum hn) <|
        .trans (keepsFrom_rewriteHeaderChecksum hn) (.of_buf rfl)) rfl
  all_goals simp [commands] at hi

/-- Settles O48: every command ends, and `KeepsFrom` holds from the end of the frame. -/
theorem commandsWriteOnlyInsideFrame : Obligations.CommandsWriteOnlyInsideFrame := by
  intro i hi s
  obtain ⟨t, he, -⟩ := command_result hi s
  exact ⟨t, he, keepsFrom_command hi he⟩

/-! ### Two memories with the same frame -/

/-- The memories agree below `n`. -/
def SameBelow (n : Nat) (m m' : Memory) : Prop := ∀ c < n, m'.read c = m.read c

section sameBelow

variable {n : Nat} {m m' : Memory} (hm : SameBelow n m m')
include hm

theorem SameBelow.be16 {a : Nat} (ha : a + 1 < n) : m'.be16 a = m.be16 a :=
  Memory.be16_congr (hm a (by omega)) (hm (a + 1) ha)

theorem SameBelow.be32 {a : Nat} (ha : a + 3 < n) : m'.be32 a = m.be32 a := by
  rw [Memory.be32, Memory.be32, hm.be16 (by omega), hm.be16 (by omega)]

theorem SameBelow.put16 (a : Nat) (v : Half) : SameBelow n (m.put16 a v) (m'.put16 a v) := by
  intro c hc
  rw [Memory.read_put16, Memory.read_put16, hm c hc]

theorem SameBelow.put32 (a : Nat) (v : Word) : SameBelow n (m.put32 a v) (m'.put32 a v) :=
  (hm.put16 a _).put16 (a + 2) _

theorem SameBelow.checksum (lane : OddLane) {a k : Nat} (h : a + k ≤ n) :
    checksum lane m' a k = checksum lane m a k :=
  checksum_congr fun c _ hc => hm c (by omega)

theorem SameBelow.headerLength (h : 20 ≤ n) : headerLength m' = headerLength m := by
  simp only [Machine.headerLength, ipIhl, hm 0 (by omega)]

/-- The checks of R140 read the header only if the frame holds it. -/
theorem SameBelow.validate : validate m' n = validate m n := by
  unfold Machine.validate
  by_cases h : n < 20
  · rw [if_pos h, if_pos h]
  · have hversion : ipVersion m' = ipVersion m := by rw [ipVersion, hm 0 (by omega), ipVersion]
    have hihl : ipIhl m' = ipIhl m := by rw [ipIhl, hm 0 (by omega), ipIhl]
    have hproto : ipProto m' = ipProto m := hm 9 (by omega)
    rw [hversion, hihl, hproto]

theorem SameBelow.extractIp (r : Regs) : extractIp m' n r = extractIp m n r := by
  unfold Machine.extractIp
  by_cases h : 20 ≤ n
  · simp only [h, if_true, ipChecksum, ipProto, ipVersion, ipIhl, ipSource, ipDestination,
      hm 0 (by omega), hm 9 (by omega), hm.be16 (a := 10) (by omega), hm.be32 (a := 12) (by omega),
      hm.be32 (a := 16) (by omega)]
  · rw [if_neg h, if_neg h]

/-- A UDP field is read only if it lies inside the frame (R143). -/
theorem SameBelow.udpField {h rem k : Nat} (hn : Splits n h rem) :
    (if k + 2 ≤ rem then m'.be16 (h + k) else 0) = if k + 2 ≤ rem then m.be16 (h + k) else 0 := by
  obtain ⟨-, hlen⟩ := hn
  split
  · exact hm.be16 (by omega)
  · rfl

theorem SameBelow.extractUdp {h rem : Nat} (hn : Splits n h rem) (r : Regs) :
    extractUdp m' h rem r = extractUdp m h rem r := by
  have hsport : udpSport m' h rem = udpSport m h rem := hm.udpField (k := 0) hn
  have hdport : udpDport m' h rem = udpDport m h rem := hm.udpField (k := 2) hn
  have hlength : udpLength m' h rem = udpLength m h rem := hm.udpField (k := 4) hn
  have hcsum : udpChecksum m' h rem = udpChecksum m h rem := hm.udpField (k := 6) hn
  simp only [Machine.extractUdp, hsport, hdport, hlength, hcsum]

theorem SameBelow.extract (r : Regs) : extract m' n r = extract m n r := by
  by_cases hv : Machine.validate m n = .accept
  · obtain ⟨hlen, -⟩ := validate_eq_accept.1 hv
    rw [extract_accept hv, extract_accept (hm.validate.trans hv), hm.headerLength hlen, hm.extractIp,
      hm.extractUdp (splits_of_accept hv)]
  · rw [extract_reject hv, extract_reject (hm.validate ▸ hv), hm.validate, hm.extractIp]

theorem SameBelow.swapAddresses (h : 20 ≤ n) : SameBelow n (swapAddresses m) (swapAddresses m') := by
  unfold Machine.swapAddresses
  rw [hm.be32 (a := 12) (by omega), hm.be32 (a := 16) (by omega)]
  exact (hm.put32 12 _).put32 16 _

/-- The ports are exchanged only if both lie inside the frame (R151). -/
theorem SameBelow.swapPorts {h rem : Nat} (hn : Splits n h rem) :
    SameBelow n (swapPorts m h rem) (swapPorts m' h rem) := by
  obtain ⟨-, hlen⟩ := hn
  unfold Machine.swapPorts
  split
  · rw [hm.be16 (a := h) (by omega), hm.be16 (a := h + 2) (by omega)]
    exact (hm.put16 h _).put16 (h + 2) _
  · exact hm

theorem SameBelow.clearUdpChecksum (h rem : Nat) :
    SameBelow n (clearUdpChecksum m h rem) (clearUdpChecksum m' h rem) := by
  unfold Machine.clearUdpChecksum
  split
  · exact hm.put16 _ _
  · exact hm

end sameBelow

/-! ### Two states with the same frame -/

/-- The two states agree on all that a command reads, for a frame of `n` bytes: the parameters, the registers
and the bytes of the frame. -/
structure SameFrame (n : Nat) (s s' : State) : Prop where
  cfg : s'.cfg = s.cfg
  regs : s'.regs = s.regs
  bytes : SameBelow n s.buf s'.buf

section sameFrame

variable {n : Nat} {s s' : State} (hs : SameFrame n s s')
include hs

theorem SameFrame.complete (b : Bool) : SameFrame n (s.complete b) (s'.complete b) :=
  ⟨hs.cfg, by rw [State.complete_regs, State.complete_regs, hs.regs], hs.bytes⟩

theorem SameFrame.cmdError (c : ErrCode) : SameFrame n (s.cmdError c) (s'.cmdError c) :=
  ⟨hs.cfg, by rw [State.cmdError_regs, State.cmdError_regs, hs.regs], hs.bytes⟩

theorem SameFrame.setCsumOk (b : Bool) : SameFrame n (s.setCsumOk b) (s'.setCsumOk b) :=
  ⟨hs.cfg, by rw [State.setCsumOk_regs, State.setCsumOk_regs, hs.regs], hs.bytes⟩

theorem SameFrame.setChecksum (c : Checksum) : SameFrame n (s.setChecksum c) (s'.setChecksum c) :=
  ⟨hs.cfg, by rw [State.setChecksum_regs, State.setChecksum_regs, hs.regs], hs.bytes⟩

theorem SameFrame.store {m m' : Memory} (hm : SameBelow n m m') :
    SameFrame n { s with buf := m } { s' with buf := m' } :=
  ⟨hs.cfg, hs.regs, hm⟩

theorem SameFrame.frameLength : s'.frameLength = s.frameLength := by
  rw [State.frameLength, hs.regs, State.frameLength]

theorem SameFrame.vx (hn : s.frameLength = n) : SameFrame n s.vx s'.vx := by
  refine ⟨hs.cfg, ?_, hs.bytes⟩
  rw [State.vx_regs, State.vx_regs, hs.frameLength, hs.regs, hn, hs.bytes.extract]

/-- The checksum of a range inside the frame, stored in the result registers. -/
theorem SameFrame.verifyHeader {h rem : Nat} (hn : Splits n h rem) :
    SameFrame n (s.verifyHeader h) (s'.verifyHeader h) := by
  obtain ⟨-, hlen⟩ := hn
  unfold State.verifyHeader
  rw [hs.cfg, hs.bytes.checksum _ (by omega)]
  exact (hs.setChecksum _).setCsumOk _

theorem SameFrame.rewriteHeaderChecksum {h rem : Nat} (hn : Splits n h rem) :
    SameFrame n (s.rewriteHeaderChecksum h) (s'.rewriteHeaderChecksum h) := by
  obtain ⟨-, hlen⟩ := hn
  have hzeroed := hs.bytes.put16 10 0
  simp only [State.rewriteHeaderChecksum, hs.cfg, hzeroed.checksum _ (show 0 + h ≤ n by omega)]
  exact (hs.setChecksum _).store (hzeroed.put16 10 _)

theorem SameFrame.swapEndpoints {h rem : Nat} (hn : Splits n h rem) :
    SameFrame n (s.swapEndpoints h rem) (s'.swapEndpoints h rem) :=
  have hlen : 20 ≤ n := by obtain ⟨hhdr, hlen⟩ := hn; omega
  hs.store ((hs.bytes.swapAddresses hlen).swapPorts hn)

theorem SameFrame.dropUdpChecksum (h rem : Nat) :
    SameFrame n (s.dropUdpChecksum h rem) (s'.dropUdpChecksum h rem) :=
  hs.store (hs.bytes.clearUdpChecksum h rem)

/-- A frame command takes the same way in both states. -/
theorem SameFrame.frameCommand {f : State → Nat → Nat → State} {g : State → State}
    (hn : s.frameLength = n)
    (hf : ∀ h rem, Splits n h rem → SameFrame n (f s.vx h rem) (f s'.vx h rem))
    (hg : SameFrame n (g s.vx) (g s'.vx)) :
    SameFrame n (s.frameCommand f g) (s'.frameCommand f g) := by
  have hn' : s'.frameLength = n := hs.frameLength.trans hn
  by_cases hlen : n ≤ s.cfg.bufCap
  · have hlen' : n ≤ s'.cfg.bufCap := hs.cfg ▸ hlen
    by_cases hv : validate s.buf n = .accept
    · have hv' := hs.bytes.validate.trans hv
      obtain ⟨h20, -⟩ := validate_eq_accept.1 hv
      rw [State.frameCommand_accept (hn ▸ hlen) (hn ▸ hv),
        State.frameCommand_accept (hn' ▸ hlen') (hn' ▸ hv'), hs.bytes.headerLength h20, hn, hn']
      exact hf _ _ (splits_of_accept hv)
    · have hv' : validate s'.buf n ≠ .accept := hs.bytes.validate ▸ hv
      rw [State.frameCommand_reject (hn ▸ hlen) (hn ▸ hv),
        State.frameCommand_reject (hn' ▸ hlen') (hn' ▸ hv')]
      exact hg
  · rw [State.frameCommand_lenRange (by omega),
      State.frameCommand_lenRange (by rw [hs.cfg]; omega)]
    exact hs.cmdError .lenRange

/-- CSUM's range ends inside the frame, or it is an error (R115). -/
theorem SameFrame.execCsum (hn : s.frameLength = n) {t t' : State} (h : execCsum s = .next t)
    (h' : execCsum s' = .next t') : SameFrame n t t' := by
  have hoff : s'.csumOffset = s.csumOffset := by rw [State.csumOffset, hs.regs, State.csumOffset]
  have hcount : s'.csumCount = s.csumCount := by rw [State.csumCount, hs.regs, State.csumCount]
  unfold Machine.execCsum at h h'
  rw [hs.cfg, hs.frameLength, hoff, hcount] at h'
  by_cases hlen : s.cfg.bufCap < s.frameLength
  · rw [if_pos hlen] at h h'
    cases h; cases h'
    exact hs.cmdError .lenRange
  · rw [if_neg hlen] at h h'
    by_cases hrange : s.frameLength < s.csumOffset + s.csumCount
    · rw [if_pos hrange] at h h'
      cases h; cases h'
      exact hs.cmdError .csumRange
    · rw [if_neg hrange] at h h'
      rw [hs.bytes.checksum _ (by omega)] at h'
      cases h; cases h'
      exact (hs.setChecksum _).complete false

/-- Every command, from two states with the same frame. -/
theorem SameFrame.command (hn : s.frameLength = n) {i : Instr} (hi : i ∈ commands) {t t' : State}
    (h : exec i s = .next t) (h' : exec i s' = .next t') : SameFrame n t t' := by
  have hvx := hs.vx hn
  cases i
  case nop => cases h; cases h'; exact hs.complete false
  case csum => exact hs.execCsum hn h h'
  case parse =>
    cases h; cases h'
    exact hs.frameCommand hn (fun _ _ _ => hvx.complete false) (hvx.complete false)
  case swap =>
    cases h; cases h'
    exact hs.frameCommand hn (fun _ _ hsplit => (hvx.swapEndpoints hsplit).complete true)
      (hvx.complete false)
  case hdrcsum =>
    cases h; cases h'
    exact hs.frameCommand hn (fun _ _ hsplit => (hvx.rewriteHeaderChecksum hsplit).complete true)
      (hvx.complete false)
  case verify =>
    cases h; cases h'
    exact hs.frameCommand hn (fun _ _ hsplit => (hvx.verifyHeader hsplit).complete false)
      ((hvx.setCsumOk false).complete false)
  case echo =>
    cases h; cases h'
    exact hs.frameCommand hn
      (fun h rem hsplit => (((hvx.swapEndpoints hsplit).dropUdpChecksum h rem).rewriteHeaderChecksum
        hsplit).complete true)
      (hvx.complete false)
  all_goals simp [commands] at hi

end sameFrame

/-- Settles O47: two states with the same frame still have the same frame after the command. -/
theorem commandsReadOnlyTheFrame : Obligations.CommandsReadOnlyTheFrame := by
  intro i hi s s' hcfg hregs hbytes
  obtain ⟨t, he, -⟩ := command_result hi s
  obtain ⟨t', he', -⟩ := command_result hi s'
  have hsame : SameFrame s.frameLength t t' := .command ⟨hcfg, hregs, hbytes⟩ rfl hi he he'
  exact ⟨t, t', he, he', hsame.regs, hsame.bytes⟩

/-! ### The source address -/

/-- IP_SRC of a frame that holds the header, accepted or not (R37, R146). -/
theorem extract_ipSrc {m : Memory} {len : Nat} (r : Regs) (h : 20 ≤ len) :
    (extract m len r).ipSrc = m.be32 12 := by
  by_cases hv : validate m len = .accept
  · simp [extract_accept hv, extractUdp, extractIp, h, ipSource]
  · simp [extract_reject hv, clearUdp, extractIp, h, ipSource]

/-- PARSE of a frame that fits: validation, extraction and completion, for every result (R150). -/
theorem exec_parse {s : State} (h : s.frameLength ≤ s.cfg.bufCap) :
    exec .parse s = .next (s.vx.complete false) := by
  change Host.Outcome.next (s.frameCommand _ _) = _
  by_cases hv : validate s.buf s.frameLength = .accept
  · rw [State.frameCommand_accept h hv]
  · rw [State.frameCommand_reject h hv]

/-- Settles O30: PARSE leaves the buffer, and IP_SRC is the word at offset 12. -/
theorem bufferReadEqualsIpSrc : Obligations.BufferReadEqualsIpSrc := by
  intro s hlen hcap
  have hoff : 12 < s.cfg.bufCap := by omega
  refine ⟨_, exec_parse hcap, ?_⟩
  have hread := exec_readInstr_buffer (s := s.vx.complete false) (size := .four) (a := 0x100C) rfl rfl
    hoff rfl
  rwa [show (s.vx.complete false).regs.ipSrc = s.buf.be32 12 from extract_ipSrc s.regs hlen]

end Sys2Proof.Machine
end

section
/-! PROOF. The encoding: an access tuple gives back its fields, and decoding undoes encoding. -/

namespace Sys2Proof

/-! ### The fields of an access tuple (R90) -/

section fields

variable (w : Bool) (sz : BitVec 2) (a : Half) (d : Word)

@[simp] theorem writeField_accessTuple : writeField (accessTuple w sz a d) = w := by
  simp only [writeField, accessTuple, BitVec.getLsbD_append]
  exact BitVec.getLsbD_ofBool ..

@[simp] theorem sizeField_accessTuple : sizeField (accessTuple w sz a d) = sz := by
  rw [sizeField, accessTuple, BitVec.extractLsb'_append_eq_of_le (by decide),
    BitVec.extractLsb'_append_eq_of_le (by decide), BitVec.extractLsb'_append_eq_right]

@[simp] theorem addrField_accessTuple : addrField (accessTuple w sz a d) = a := by
  rw [addrField, accessTuple, BitVec.extractLsb'_append_eq_of_le (by decide),
    BitVec.extractLsb'_append_eq_right]

@[simp] theorem dataField_accessTuple : dataField (accessTuple w sz a d) = d :=
  BitVec.extractLsb'_append_eq_right

end fields

theorem ofBool_writeField (t : BitVec 51) : BitVec.ofBool (writeField t) = t.extractLsb' 50 1 := by
  ext i hi
  obtain rfl : i = 0 := by omega
  simp [writeField]

/-- The four fields lie side by side and cover the tuple. -/
theorem accessTuple_of_fields (t : BitVec 51) :
    accessTuple (writeField t) (sizeField t) (addrField t) (dataField t) = t := by
  rw [accessTuple, ofBool_writeField, sizeField, addrField, dataField,
    BitVec.extractLsb'_append_extractLsb'_eq_extractLsb' (by decide),
    BitVec.extractLsb'_append_extractLsb'_eq_extractLsb' (by decide),
    BitVec.extractLsb'_append_extractLsb'_eq_extractLsb' (by decide)]
  exact BitVec.extractLsb'_eq_self

/-! ### Decoding a tuple by W and SZ (R95, R96) -/

section tuples

variable (w : Bool) (a : Half) (d : Word)

theorem decodeAccess_rd8 : decodeAccess (accessTuple false 0 a d) = .ok (.rd8 a) := by
  simp [decodeAccess]

theorem decodeAccess_rd16 : decodeAccess (accessTuple false 1 a d) = .ok (.rd16 a) := by
  simp [decodeAccess]

theorem decodeAccess_rd32 : decodeAccess (accessTuple false 2 a d) = .ok (.rd32 a) := by
  simp [decodeAccess]

theorem decodeAccess_wr8 : decodeAccess (accessTuple true 0 a d) = .ok (.wr8 a d) := by
  simp [decodeAccess]

theorem decodeAccess_wr16 : decodeAccess (accessTuple true 1 a d) = .ok (.wr16 a d) := by
  simp [decodeAccess]

theorem decodeAccess_wr32 : decodeAccess (accessTuple true 2 a d) = .ok (.wr32 a d) := by
  simp [decodeAccess]

theorem decodeAccess_illegalSize : decodeAccess (accessTuple w 3 a d) = .error .illegalSize := by
  cases w <;> simp [decodeAccess]

end tuples

/-- Settles O3: the four fields cover the tuple, and each W and SZ has its equation. -/
theorem accessTuplesDecodeByField : Obligations.AccessTuplesDecodeByField :=
  ⟨fun t => (accessTuple_of_fields t).symm, fun a d =>
    ⟨decodeAccess_rd8 a d, decodeAccess_rd16 a d, decodeAccess_rd32 a d, decodeAccess_wr8 a d,
      decodeAccess_wr16 a d, decodeAccess_wr32 a d, fun w => decodeAccess_illegalSize w a d⟩⟩

/-- Settles O1: a command's word is one of seven, and an access's tuple decodes by its W and SZ. -/
theorem decodeInvertsEncode : Obligations.DecodeInvertsEncode := by
  intro i
  cases i with
  | nop | csum | parse | swap | hdrcsum | verify | echo => rfl
  | rd8 a => exact decodeAccess_rd8 a 0
  | rd16 a => exact decodeAccess_rd16 a 0
  | rd32 a => exact decodeAccess_rd32 a 0
  | wr8 a d => exact decodeAccess_wr8 a d
  | wr16 a d => exact decodeAccess_wr16 a d
  | wr32 a d => exact decodeAccess_wr32 a d

/-! ### Command words (R91, R92) -/

theorem commandOf_eq_some {op : BitVec 4} {i : Instr} :
    commandOf op = some i ↔
      (op = 0 ∧ i = .nop) ∨ (op = 1 ∧ i = .csum) ∨ (op = 2 ∧ i = .parse) ∨ (op = 3 ∧ i = .swap) ∨
        (op = 4 ∧ i = .hdrcsum) ∨ (op = 5 ∧ i = .verify) ∨ (op = 6 ∧ i = .echo) := by
  constructor
  · intro h
    unfold commandOf at h
    split at h
    all_goals simp_all [← BitVec.toNat_inj]
  · rintro (⟨rfl, rfl⟩ | ⟨rfl, rfl⟩ | ⟨rfl, rfl⟩ | ⟨rfl, rfl⟩ | ⟨rfl, rfl⟩ | ⟨rfl, rfl⟩ | ⟨rfl, rfl⟩)
    all_goals rfl

theorem rsvField_append_opField (w : Word) : rsvField w ++ opField w = w :=
  (BitVec.extractLsb'_append_extractLsb'_eq_extractLsb' rfl).trans BitVec.extractLsb'_eq_self

/-- A command word without reserved bits is its opcode (R90). -/
theorem word_eq_iff_fields {w : Word} {op : BitVec 4} :
    w = 0#28 ++ op ↔ rsvField w = 0 ∧ opField w = op := by
  constructor
  · rintro rfl
    exact ⟨BitVec.extractLsb'_append_eq_left, BitVec.extractLsb'_append_eq_right⟩
  · rintro ⟨hrsv, hop⟩
    rw [← rsvField_append_opField w, hrsv, hop]
    rfl

theorem decodeCommand_eq_ok {w : Word} {i : Instr} :
    decodeCommand w = .ok i ↔ rsvField w = 0 ∧ commandOf (opField w) = some i := by
  unfold decodeCommand
  split
  · next hrsv => exact iff_of_false nofun fun h => hrsv h.1
  · next hrsv =>
    rw [and_iff_right (not_not.1 hrsv)]
    cases commandOf (opField w) <;> simp

/-- Settles O2: a legal word has no reserved bits, and its opcode has a command. -/
theorem legalCommandWords : Obligations.LegalCommandWords := by
  intro w i
  simp only [decodeCommand_eq_ok, commandOf_eq_some, and_or_left, ← and_assoc, ← word_eq_iff_fields]
  rfl

/-- Settles O4: the decoder, run on each word. -/
theorem tableWordsDecode : Obligations.TableWordsDecode :=
  ⟨rfl, rfl, rfl, rfl, rfl, rfl, rfl, rfl, rfl, rfl⟩

end Sys2Proof
end

section
/-! PROOF. The `load` line of a host script (R97): each of its accesses is a store to the buffer of an idle block,
and together they leave the bytes of the line. -/

namespace Sys2Proof.Machine

/-- The bytes at `a`, `a + 1`, … become those of the list. -/
def Memory.writes : Memory → Nat → List Byte → Memory
  | m, _, [] => m
  | m, a, x :: xs => (m.write a x).writes (a + 1) xs

theorem Memory.read_writes (m : Memory) (a c : Nat) (bytes : List Byte) :
    (m.writes a bytes).read c =
      if h : a ≤ c ∧ c - a < bytes.length then bytes[c - a]'h.2 else m.read c := by
  induction bytes generalizing m a with
  | nil => simp [Memory.writes]
  | cons x xs ih =>
    rw [Memory.writes, ih, Memory.read_write]
    rcases lt_trichotomy c a with hc | rfl | hc
    · rw [dif_neg (by omega), dif_neg (by omega), if_neg (by omega)]
    · simp
    · obtain ⟨k, rfl⟩ : ∃ k, c = a + 1 + k := ⟨c - (a + 1), by omega⟩
      have hk : a + 1 + k - a = k + 1 := by omega
      have hk' : a + 1 + k - (a + 1) = k := by omega
      simp only [hk, hk', List.getElem_cons_succ, List.length_cons, Nat.add_lt_add_iff_right,
        Nat.le_add_right, true_and, hc.le]
      simp [hc.ne']

/-! ### A store as its bytes in order (R60) -/

theorem lowBits_setWidth {n : Nat} (x : BitVec n) (h : n ≤ 32) : (x.setWidth 32).extractLsb' 0 n = x := by
  rw [BitVec.extractLsb'_setWidth_of_le (by omega), BitVec.extractLsb'_eq_self]

theorem Memory.put16_append (m : Memory) (a : Nat) (x y : Byte) : m.put16 a (x ++ y) = m.writes a [x, y] := by
  rw [Memory.put16, byte_hi, byte_lo]
  rfl

theorem bufferWrite_one (m : Memory) (a : Nat) (x : Byte) :
    bufferWrite m .one a (x.setWidth 32) = m.writes a [x] := by
  rw [bufferWrite, lowBits_setWidth x (by decide)]
  rfl

theorem bufferWrite_two (m : Memory) (a : Nat) (x y : Byte) :
    bufferWrite m .two a ((x ++ y).setWidth 32) = m.writes a [x, y] := by
  rw [bufferWrite, lowBits_setWidth (x ++ y) (by decide), Memory.put16_append]

theorem bufferWrite_four (m : Memory) (a : Nat) (x y z w : Byte) :
    bufferWrite m .four a (x ++ y ++ z ++ w) = m.writes a [x, y, z, w] := by
  have hassoc : x ++ y ++ z ++ w = (x ++ y) ++ (z ++ w) := BitVec.append_assoc
  rw [hassoc, bufferWrite, Memory.put32, BitVec.extractLsb'_append_eq_left,
    BitVec.extractLsb'_append_eq_right, Memory.put16_append, Memory.put16_append]
  rfl

/-! ### The accesses of the line -/

theorem decodeAccess_of_encode {i : Instr} {b : BitVec 51} (h : encode i = .access b) :
    decodeAccess b = .ok i := by
  have hdec := decodeInvertsEncode i
  rwa [h] at hdec

theorem toNat_bufOffset {p : Params} (hcfg : p.Legal) {o : Nat} (ho : o < p.bufCap) :
    (bufOffset o).toNat = 0x1000 + o := by
  obtain ⟨-, hcap, -⟩ := hcfg
  rw [bufOffset, BitVec.toNat_ofNat]
  omega

/-- An idle block performs the buffer write that is presented next. -/
theorem run_bufferWrite {s : State} {size : AccessSize} {o : Nat} {d : Word} {m : Memory}
    {rest : List HostEvent} (hcfg : s.cfg.Legal) (hr : s.rstN = true) (hp : s.pend = none)
    (hh : s.host = scriptEvent (writeInstr size (bufOffset o) d) ++ rest)
    (hm : bufferWrite s.buf size o d = m) (ho : o < s.cfg.bufCap) (hal : o % size.bytes = 0) (k : Nat) :
    Host.Core.run core (k + 1) s =
      Host.Core.run core k { s with buf := m, bus := .writeDone, host := rest } := by
  refine run_succ ?_ k
  obtain ⟨b, hb⟩ : ∃ b, encode (writeInstr size (bufOffset o) d) = .access b := by
    cases size <;> exact ⟨_, rfl⟩
  have hhost : s.host = .access b :: rest := by
    rw [hh, scriptEvent, hb]
    rfl
  rw [step_host_idle hr hp hhost, State.hostStep, State.busAccess_of_decode (decodeAccess_of_encode hb), ← hm]
  exact exec_writeInstr_buffer hp (toNat_bufOffset hcfg ho) ho hal

/-- The accesses of a load line store its bytes in order. -/
theorem run_scriptLoad (a : Nat) (bytes : List Byte) {s : State} (hcfg : s.cfg.Legal)
    (hr : s.rstN = true) (hp : s.pend = none) (hh : s.host = (scriptLoad a bytes).flatMap scriptEvent)
    (hal : a % 4 = 0) (hfit : a + bytes.length ≤ s.cfg.bufCap) :
    ∃ bus, Host.Core.run core (scriptLoad a bytes).length s =
      .next { s with buf := s.buf.writes a bytes, bus := bus, host := [] } := by
  have heven : a % 2 = 0 := by omega
  induction a, bytes using scriptLoad.induct generalizing s with
  | case1 a =>
    have hnone : s.host = [] := hh
    exact ⟨s.bus, by cases s; cases hnone; rfl⟩
  | case2 a x =>
    have hin : a < s.cfg.bufCap := hfit
    exact ⟨_, run_bufferWrite (size := .one) hcfg hr hp hh (bufferWrite_one _ _ _) hin (Nat.mod_one a) 0⟩
  | case3 a x y =>
    have hin : a < s.cfg.bufCap := Nat.lt_of_succ_lt hfit
    exact ⟨_, run_bufferWrite (size := .two) hcfg hr hp hh (bufferWrite_two _ _ _ _) hin heven 0⟩
  | case4 a x y z =>
    have hin : a + 2 < s.cfg.bufCap := hfit
    have hwr16 := run_bufferWrite (size := .two) hcfg hr hp hh (bufferWrite_two _ _ _ _) (by omega) heven 1
    exact ⟨_, hwr16.trans (run_bufferWrite (size := .one) (rest := [])
      (s := { s with buf := s.buf.writes a [x, y], bus := .writeDone, host := _ }) hcfg hr hp rfl
      (bufferWrite_one _ _ z) hin (Nat.mod_one (a + 2)) 0)⟩
  | case5 a x y z w rest ih =>
    rw [List.length_cons, List.length_cons, List.length_cons, List.length_cons] at hfit
    have hwr32 := run_bufferWrite (size := .four) hcfg hr hp hh (bufferWrite_four _ _ _ _ _ _) (by omega) hal
      (scriptLoad (a + 4) rest).length
    have hrest : a + 4 + rest.length ≤ s.cfg.bufCap := by omega
    obtain ⟨bus, hrun⟩ := ih (s := { s with buf := s.buf.writes a [x, y, z, w], bus := .writeDone, host := _ })
      hcfg hr hp rfl (by omega) hrest (by omega)
    exact ⟨bus, hwr32.trans hrun⟩

/-- Settles O31: the stores of the line leave its bytes, and each touches only the buffer and the bus. -/
theorem scriptLoadFillsBuffer : Obligations.ScriptLoadFillsBuffer := by
  intro s a bytes hcfg hr hp hal hfit
  obtain ⟨bus, hrun⟩ := run_scriptLoad a bytes (s := s.withScript [.load a bytes]) hcfg hr hp
    (List.append_nil _) hal hfit
  exact ⟨_, hrun, rfl, fun c => s.buf.read_writes a c bytes⟩

end Sys2Proof.Machine
end

section
/-! PROOF. The function CK: its folded accumulator is the one's-complement sum of the exact sum, and what that
makes of reordered words and of swapped bytes (R112). -/

namespace Sys2Proof.Machine

open Sys2Proof.Safety

/-! ### The one's-complement sum of a number (R112(c)) -/

theorem onesSum_le (t : Nat) : onesSum t ≤ 65535 := by
  unfold onesSum
  split <;> omega

@[simp] theorem onesSum_eq_zero {t : Nat} : onesSum t = 0 ↔ t = 0 := by
  unfold onesSum
  split <;> omega

theorem onesSum_modEq (t : Nat) : onesSum t ≡ t [MOD 65535] := by
  unfold onesSum Nat.ModEq
  split <;> omega

/-- The representative of its residue class in 1 to 65535, and 0 for the number 0 only. -/
theorem onesSum_eq_of_modEq {r t : Nat} (hr : r ≤ 65535) (hmod : r ≡ t [MOD 65535])
    (hzero : r = 0 ↔ t = 0) : onesSum t = r := by
  have hsum := (onesSum_modEq t).trans hmod.symm
  have hle := onesSum_le t
  have h₀ := onesSum_eq_zero (t := t)
  unfold Nat.ModEq at hsum
  omega

theorem onesSum_of_le {t : Nat} (h : t ≤ 65535) : onesSum t = t := onesSum_eq_of_modEq h rfl .rfl

theorem onesSum_congr {t t' : Nat} (hmod : t ≡ t' [MOD 65535]) (hzero : t = 0 ↔ t' = 0) :
    onesSum t = onesSum t' :=
  onesSum_eq_of_modEq (onesSum_le t') ((onesSum_modEq t').trans hmod.symm) (onesSum_eq_zero.trans hzero.symm)

/-- The sum is the nonzero zero of one's complement for the nonzero multiples of 65535 (R121). -/
theorem onesSum_eq_max {t : Nat} : onesSum t = 65535 ↔ t ≠ 0 ∧ t % 65535 = 0 := by
  have hmod := onesSum_modEq t
  have hle := onesSum_le t
  have h₀ := onesSum_eq_zero (t := t)
  unfold Nat.ModEq at hmod
  omega

/-! ### The fold loop (R111) -/

theorem upperHalf_eq_zero {acc : Word} : acc.extractLsb' 16 16 = 0 ↔ acc.toNat < 65536 := by
  have := acc.isLt
  rw [← BitVec.toNat_inj, BitVec.extractLsb'_toNat, Nat.shiftRight_eq_div_pow]
  simp only [BitVec.ofNat_eq_ofNat, BitVec.toNat_ofNat]
  omega

theorem toNat_foldOnce (acc : Word) : (foldOnce acc).toNat = acc.toNat % 65536 + acc.toNat / 65536 := by
  have hlow : acc.toNat % 65536 < 65536 := Nat.mod_lt _ (by decide)
  have hhigh : acc.toNat / 65536 < 65536 := Nat.div_lt_of_lt_mul acc.isLt
  simp only [foldOnce, BitVec.toNat_add, BitVec.toNat_setWidth, BitVec.extractLsb'_toNat,
    Nat.shiftRight_eq_div_pow, Nat.reducePow, Nat.div_one, Nat.mod_eq_of_lt hhigh]
  rw [Nat.mod_eq_of_lt (hlow.trans (by decide)), Nat.mod_eq_of_lt (hhigh.trans (by decide)),
    Nat.mod_eq_of_lt (by omega)]

/-- An end-around carry keeps the residue modulo 65535, and leaves 0 only of 0. -/
theorem onesSum_foldOnce (acc : Word) : onesSum (foldOnce acc).toNat = onesSum acc.toNat := by
  rw [toNat_foldOnce]
  exact onesSum_congr (by unfold Nat.ModEq; omega) (by omega)

theorem onesSum_foldCarries (n : Nat) (acc : Word) : onesSum (foldCarries n acc).toNat = onesSum acc.toNat := by
  induction n generalizing acc with
  | zero => rfl
  | succ n ih =>
    unfold foldCarries
    split
    · rfl
    · exact (ih _).trans (onesSum_foldOnce acc)

theorem foldCarries_of_lt {acc : Word} (h : acc.toNat < 65536) (n : Nat) : foldCarries n acc = acc := by
  cases n with
  | zero => rfl
  | succ n => rw [foldCarries, if_pos (upperHalf_eq_zero.2 h)]

/-- Two end-around carries empty the upper half of every accumulator (R112(b)). -/
theorem foldOnce_foldOnce_lt (acc : Word) : (foldOnce (foldOnce acc)).toNat < 65536 := by
  have := acc.isLt
  rw [toNat_foldOnce, toNat_foldOnce]
  omega

theorem toNat_foldCarries_two (acc : Word) : (foldCarries 2 acc).toNat = onesSum acc.toNat := by
  have hlt : (foldCarries 2 acc).toNat < 65536 := by
    by_cases h : acc.toNat < 65536
    · rwa [foldCarries_of_lt h]
    · rw [foldCarries, if_neg (mt upperHalf_eq_zero.1 h)]
      by_cases h' : (foldOnce acc).toNat < 65536
      · rwa [foldCarries_of_lt h']
      · rw [foldCarries, if_neg (mt upperHalf_eq_zero.1 h')]
        exact foldOnce_foldOnce_lt acc
  rw [← onesSum_foldCarries 2 acc, onesSum_of_le (by omega)]

/-! ### The accumulator (R111) -/

theorem num16_lt (m : Memory) (a : Nat) : num16 m a < 65536 := by
  have := (m.read a).isLt
  have := (m.read (a + 1)).isLt
  unfold num16
  omega

/-- The exact sum of the words, the first one apart. -/
theorem sum_words_succ (m : Memory) (a k : Nat) :
    ((List.range (k + 1)).map fun j => num16 m (a + 2 * j)).sum =
      num16 m a + ((List.range k).map fun j => num16 m (a + 2 + 2 * j)).sum := by
  rw [List.range_succ_eq_map, List.map_cons, List.sum_cons, List.map_map]
  congr 2
  refine List.map_congr_left fun j _ => ?_
  rw [Function.comp_apply, Nat.mul_succ, Nat.add_right_comm, Nat.add_assoc a]

theorem toNat_addWords (m : Memory) (a k : Nat) (acc : Word) :
    (addWords m a k acc).toNat =
      (acc.toNat + ((List.range k).map fun j => num16 m (a + 2 * j)).sum) % 2 ^ 32 := by
  induction k generalizing a acc with
  | zero => exact (Nat.mod_eq_of_lt acc.isLt).symm
  | succ k ih =>
    have hw : ((m.be16 a).setWidth 32 : Word).toNat = num16 m a := by
      rw [BitVec.toNat_setWidth, toNat_be16_eq_num16]
      exact Nat.mod_eq_of_lt ((num16_lt m a).trans (by decide))
    rw [addWords, ih, sum_words_succ, BitVec.toNat_add, hw, Nat.mod_add_mod, Nat.add_assoc]

theorem wordSum_le (m : Memory) (a n : Nat) : wordSum m a n ≤ n / 2 * 65535 := by
  have hle := List.sum_le_card_nsmul ((List.range (n / 2)).map fun k => num16 m (a + 2 * k)) 65535 (by
    intro x hx
    obtain ⟨k, -, rfl⟩ := List.mem_map.1 hx
    exact Nat.le_of_lt_succ (num16_lt m _))
  simpa [wordSum] using hle

theorem toNat_oddByte_low (t : Byte) : (oddByte .low t).toNat = t.toNat := by
  rw [oddByte, BitVec.toNat_setWidth]
  exact Nat.mod_eq_of_lt (t.isLt.trans (by decide))

theorem toNat_oddByte_high (t : Byte) : (oddByte .high t).toNat = 256 * t.toNat := by
  have := t.isLt
  rw [oddByte, BitVec.toNat_shiftLeft, BitVec.toNat_setWidth, Nat.shiftLeft_eq]
  omega

theorem exactSum_even (lane : OddLane) (m : Memory) (a : Nat) {n : Nat} (h : n % 2 = 0) :
    exactSum lane m a n = wordSum m a n := by
  unfold exactSum
  rw [if_neg (by omega), Nat.add_zero]

/-- What CK's loop and its odd byte leave in the accumulator before the fold. -/
def accumulator (lane : OddLane) (m : Memory) (a n : Nat) : Word :=
  if n % 2 = 1 then addWords m a (n / 2) 0 + oddByte lane (m.read (a + n - 1)) else addWords m a (n / 2) 0

theorem checksum_sum (lane : OddLane) (m : Memory) (a n : Nat) :
    (checksum lane m a n).sum = (foldCarries 2 (accumulator lane m a n)).extractLsb' 0 16 := rfl

/-- Fewer than 65536 bytes do not overflow the 32-bit accumulator (R112(a)). -/
theorem toNat_accumulator (lane : OddLane) (m : Memory) (a : Nat) {n : Nat} (hn : n < 65536) :
    (accumulator lane m a n).toNat = exactSum lane m a n := by
  have hle := wordSum_le m a n
  have hwords : (addWords m a (n / 2) 0).toNat = wordSum m a n := by
    rw [toNat_addWords, ← wordSum, show (0 : Word).toNat = 0 from rfl, Nat.zero_add]
    exact Nat.mod_eq_of_lt (by omega)
  unfold accumulator exactSum
  split
  · have hodd := (m.read (a + n - 1)).isLt
    rw [BitVec.toNat_add, hwords]
    cases lane with
    | low => rw [toNat_oddByte_low]; exact Nat.mod_eq_of_lt (by omega)
    | high => rw [toNat_oddByte_high]; exact Nat.mod_eq_of_lt (by omega)
  · exact hwords

/-! ### CK (R111, R112) -/

theorem toNat_checksum_sum (lane : OddLane) (m : Memory) (a : Nat) {n : Nat} (hn : n < 65536) :
    (checksum lane m a n).sum.toNat = onesSum (exactSum lane m a n) := by
  have hfold := toNat_foldCarries_two (accumulator lane m a n)
  have hle := onesSum_le (accumulator lane m a n).toNat
  rw [checksum_sum, BitVec.extractLsb'_toNat, Nat.shiftRight_zero, hfold, Nat.mod_eq_of_lt (by omega),
    toNat_accumulator lane m a hn]

theorem toNat_checksum_value (lane : OddLane) (m : Memory) (a : Nat) {n : Nat} (hn : n < 65536) :
    (checksum lane m a n).value.toNat = 65535 - onesSum (exactSum lane m a n) := by
  rw [checksum_value, BitVec.toNat_not, toNat_checksum_sum lane m a hn]

theorem toNat_checksum_sum_even (lane : OddLane) (m : Memory) (a : Nat) {n : Nat} (hn : n < 65536)
    (heven : n % 2 = 0) : (checksum lane m a n).sum.toNat = onesSum (wordSum m a n) := by
  rw [toNat_checksum_sum lane m a hn, exactSum_even lane m a heven]

theorem checksum_eq_of_sum {lane lane' : OddLane} {m m' : Memory} {a a' n n' : Nat}
    (h : (checksum lane m a n).sum.toNat = (checksum lane' m' a' n').sum.toNat) :
    checksum lane m a n = checksum lane' m' a' n' := by
  have hsum := BitVec.eq_of_toNat_eq h
  have hvalue : (checksum lane m a n).value = (checksum lane' m' a' n').value := by
    rw [checksum_value, checksum_value, hsum]
  exact Checksum.mk.injEq .. ▸ ⟨hsum, hvalue⟩

/-- Settles O32: the accumulator holds the exact sum, and the fold loop reduces it. -/
theorem checksumIsOnesComplementSum : Obligations.ChecksumIsOnesComplementSum :=
  fun lane m a _ hn => ⟨toNat_checksum_sum lane m a hn, toNat_checksum_value lane m a hn⟩

theorem wordSum_two_mul (m : Memory) (a k : Nat) :
    wordSum m a (2 * k) = ((List.range k).map fun j => num16 m (a + 2 * j)).sum := by
  rw [wordSum, Nat.mul_div_cancel_left k Nat.two_pos]

/-- Settles O33: the exact sum of an even range is a sum over its words, in any order. -/
theorem checksumIgnoresWordOrder : Obligations.ChecksumIgnoresWordOrder := by
  intro lane m m' a a' k hk hperm
  refine checksum_eq_of_sum ?_
  rw [toNat_checksum_sum_even lane m a (by omega) (by omega),
    toNat_checksum_sum_even lane m' a' (by omega) (by omega), wordSum_two_mul, wordSum_two_mul, hperm.sum_eq]

/-! ### Swapped bytes (R112(f)) -/

/-- The 16-bit number with its two bytes exchanged. -/
def swapBytes (w : Nat) : Nat := w % 256 * 256 + w / 256

theorem swapBytes_lt {w : Nat} (h : w < 65536) : swapBytes w < 65536 := by
  unfold swapBytes
  omega

theorem swapBytes_eq_zero {w : Nat} : swapBytes w = 0 ↔ w = 0 := by
  unfold swapBytes
  omega

/-- Exchanging the bytes multiplies by 256, as 65536 is 1 modulo 65535. -/
theorem swapBytes_modEq (w : Nat) : swapBytes w ≡ 256 * w [MOD 65535] := by
  unfold swapBytes Nat.ModEq
  omega

theorem sum_swapBytes_modEq (l : List Nat) : (l.map swapBytes).sum ≡ 256 * l.sum [MOD 65535] := by
  induction l with
  | nil => rfl
  | cons w l ih =>
    rw [List.map_cons, List.sum_cons, List.sum_cons, Nat.mul_add]
    exact (swapBytes_modEq w).add ih

theorem sum_swapBytes_eq_zero (l : List Nat) : (l.map swapBytes).sum = 0 ↔ l.sum = 0 := by
  simp [List.sum_eq_zero_iff, swapBytes_eq_zero]

theorem onesSum_sum_swapBytes (l : List Nat) : onesSum (l.map swapBytes).sum = swapBytes (onesSum l.sum) := by
  have hlt := swapBytes_lt (Nat.lt_succ_of_le (onesSum_le l.sum))
  refine onesSum_eq_of_modEq (by omega) ?_ ?_
  · calc swapBytes (onesSum l.sum)
      _ ≡ 256 * onesSum l.sum [MOD 65535] := swapBytes_modEq _
      _ ≡ 256 * l.sum [MOD 65535] := (onesSum_modEq _).mul_left 256
      _ ≡ (l.map swapBytes).sum [MOD 65535] := (sum_swapBytes_modEq l).symm
  · rw [swapBytes_eq_zero, onesSum_eq_zero, sum_swapBytes_eq_zero]

theorem num16_eq_swapBytes {m m' : Memory} {a : Nat} (h₀ : m'.read a = m.read (a + 1))
    (h₁ : m'.read (a + 1) = m.read a) : num16 m' a = swapBytes (num16 m a) := by
  have := (m.read (a + 1)).isLt
  unfold num16 swapBytes
  rw [h₀, h₁]
  omega

/-- Settles O34: exchanging the bytes of every word exchanges the bytes of the one's-complement sum. -/
theorem checksumOfSwappedBytes : Obligations.ChecksumOfSwappedBytes := by
  intro lane m m' a k hk hswap
  have hsum : wordSum m' a (2 * k) =
      (((List.range k).map fun j => num16 m (a + 2 * j)).map swapBytes).sum := by
    rw [wordSum_two_mul, List.map_map]
    congr 1
    refine List.map_congr_left fun j hj => ?_
    obtain ⟨h₀, h₁⟩ := hswap j (List.mem_range.1 hj)
    exact num16_eq_swapBytes h₀ h₁
  rw [toNat_checksum_sum_even lane m' a (by omega) (by omega),
    toNat_checksum_sum_even lane m a (by omega) (by omega), hsum, onesSum_sum_swapBytes, wordSum_two_mul]
  rfl

end Sys2Proof.Machine
end

section
/-! PROOF. The commands of the checksum engine: CSUM's range, the header's sum with and without its field, and what
HDRCSUM, ECHO and VERIFY store and report for an accepted frame. -/

namespace Sys2Proof.Machine

open Sys2Proof.Safety

/-! ### CSUM (R114, R115) -/

theorem exec_csum {s : State} (hcap : s.frameLength ≤ s.cfg.bufCap)
    (hrange : s.csumOffset + s.csumCount ≤ s.frameLength) :
    exec .csum s =
      .next ((s.setChecksum (checksum s.cfg.oddLane s.buf s.csumOffset s.csumCount)).complete false) := by
  change execCsum s = _
  rw [execCsum, if_neg (Nat.not_lt.2 hcap), if_neg (Nat.not_lt.2 hrange)]

theorem exec_csum_rangeError {s : State} (hcap : s.frameLength ≤ s.cfg.bufCap)
    (hrange : s.frameLength < s.csumOffset + s.csumCount) :
    exec .csum s = .next (s.cmdError .csumRange) := by
  change execCsum s = _
  rw [execCsum, if_neg (Nat.not_lt.2 hcap), if_pos hrange]

/-- Settles O35: CSUM stores CK of its range, which `toNat_checksum_sum` gives as a number. -/
theorem csumCompletes : Obligations.CsumCompletes := fun s hcap hrange =>
  ⟨_, exec_csum hcap hrange, rfl, toNat_checksum_sum s.cfg.oddLane s.buf _ s.regs.csumLen.isLt⟩

/-- Settles O36: the range check compares naturals, so that the sum does not wrap. -/
theorem csumRangeError : Obligations.CsumRangeError := fun _ hcap hrange => exec_csum_rangeError hcap hrange

/-! ### The header of an accepted frame -/

theorem hdr_bounds {m : Memory} {len : Nat} (hacc : Accepted m len) :
    20 ≤ hdr m ∧ hdr m < 65536 ∧ hdr m % 2 = 0 := by
  obtain ⟨-, -, -, hihl, -⟩ := hacc
  unfold hdr ihl at *
  omega

/-- Validation reads bytes 0 and 9 only (R140). -/
theorem accepted_of_read {m m' : Memory} {len : Nat} (h₀ : m'.read 0 = m.read 0) (h₉ : m'.read 9 = m.read 9)
    (hacc : Accepted m len) : Accepted m' len := by
  simpa only [Accepted, version, hdr, ihl, h₀, h₉] using hacc

theorem hdr_congr {m m' : Memory} (h₀ : m'.read 0 = m.read 0) : hdr m' = hdr m := by
  rw [hdr, hdr, ihl, ihl, h₀]

/-! ### The header's sum with and without its field (R116) -/

theorem wordSum_eq_add_field (m : Memory) {h : Nat} (hlen : 12 ≤ h) :
    wordSum m 0 h = headerSumWithoutField m h + num16 m 10 := by
  have hmem : 5 ∈ Finset.range (h / 2) := Finset.mem_range.2 (by omega)
  have hsplit : ∀ j, num16 m (0 + 2 * j) =
      (if j = 5 then 0 else num16 m (2 * j)) + if j = 5 then num16 m 10 else 0 := by
    intro j
    rw [Nat.zero_add]
    split
    · next hj => rw [hj, Nat.zero_add]
    · rfl
  change ∑ j ∈ Finset.range (h / 2), num16 m (0 + 2 * j) =
    (∑ j ∈ Finset.range (h / 2), if j = 5 then 0 else num16 m (2 * j)) + num16 m 10
  rw [Finset.sum_congr rfl fun j _ => hsplit j, Finset.sum_add_distrib, Finset.sum_ite_eq', if_pos hmem]

theorem headerSumWithoutField_congr {m m' : Memory} {h : Nat}
    (hread : ∀ c, c ≠ 10 ∧ c ≠ 11 → m'.read c = m.read c) :
    headerSumWithoutField m' h = headerSumWithoutField m h := by
  unfold headerSumWithoutField
  congr 1
  refine List.map_congr_left fun j _ => ?_
  split
  · rfl
  · rw [num16, num16, hread (2 * j) (by omega), hread (2 * j + 1) (by omega)]

/-- The version of an accepted frame makes its first word, and so the sum, positive. -/
theorem headerSumWithoutField_ne_zero {m : Memory} {len : Nat} (hacc : Accepted m len) :
    headerSumWithoutField m (hdr m) ≠ 0 := by
  obtain ⟨hlen, -, -⟩ := hdr_bounds hacc
  obtain ⟨-, hversion, -⟩ := hacc
  have hfirst : num16 m 0 ≤ headerSumWithoutField m (hdr m) :=
    List.single_le_sum (fun _ _ => Nat.zero_le _) _ (List.mem_map.2 ⟨0, List.mem_range.2 (by omega), rfl⟩)
  unfold num16 at hfirst
  unfold version at hversion
  omega

theorem wordSum_header_ne_zero {m : Memory} {len : Nat} (hacc : Accepted m len) : wordSum m 0 (hdr m) ≠ 0 := by
  obtain ⟨hlen, -, -⟩ := hdr_bounds hacc
  have hne := headerSumWithoutField_ne_zero hacc
  rw [wordSum_eq_add_field m (by omega)]
  omega

/-- Storing 0 in the field takes it out of the sum (R116). -/
theorem wordSum_zeroed (m : Memory) {h : Nat} (hlen : 12 ≤ h) :
    wordSum (m.put16 10 0) 0 h = headerSumWithoutField m h := by
  have hfield : num16 (m.put16 10 0) 10 = 0 := by
    rw [← toNat_be16_eq_num16, Memory.be16_put16]
    rfl
  rw [wordSum_eq_add_field _ hlen, hfield, Nat.add_zero]
  refine headerSumWithoutField_congr fun c ⟨h₁₀, h₁₁⟩ => ?_
  rw [Memory.read_put16, if_neg h₁₀, if_neg h₁₁]

/-! ### The recompute (R116) -/

/-- CK of the header with its field zeroed: what the recompute stores. -/
def State.headerChecksum (s : State) (h : Nat) : Checksum :=
  checksum s.cfg.oddLane (s.buf.put16 10 0) 0 h

@[simp] theorem State.rewriteHeaderChecksum_cfg (s : State) (h : Nat) : (s.rewriteHeaderChecksum h).cfg = s.cfg := rfl

@[simp] theorem State.rewriteHeaderChecksum_regs (s : State) (h : Nat) :
    (s.rewriteHeaderChecksum h).regs = (s.setChecksum (s.headerChecksum h)).regs := rfl

@[simp] theorem State.be16_rewriteHeaderChecksum (s : State) (h : Nat) :
    (s.rewriteHeaderChecksum h).buf.be16 10 = (s.headerChecksum h).value := Memory.be16_put16 ..

/-- The bytes after the recompute: its value at offsets 10 and 11, and every other byte as it was. -/
theorem State.read_rewriteHeaderChecksum_eq (s : State) (h c : Nat) :
    (s.rewriteHeaderChecksum h).buf.read c =
      if c = 10 then (s.headerChecksum h).value.extractLsb' 8 8
      else if c = 11 then (s.headerChecksum h).value.extractLsb' 0 8 else s.buf.read c := by
  split_ifs with h₁₀ h₁₁
  · exact (Memory.read_put16 ..).trans (if_pos h₁₀)
  · exact (Memory.read_put16 ..).trans ((if_neg h₁₀).trans (if_pos h₁₁))
  · exact read_rewriteHeaderChecksum s h c ⟨h₁₀, h₁₁⟩

/-- The recompute does not look at the field's old bytes. -/
theorem State.headerChecksum_congr {s s' : State} (h : Nat) (hcfg : s'.cfg = s.cfg)
    (hread : ∀ c, c ≠ 10 ∧ c ≠ 11 → s'.buf.read c = s.buf.read c) :
    s'.headerChecksum h = s.headerChecksum h := by
  rw [State.headerChecksum, State.headerChecksum, hcfg]
  refine checksum_congr fun c _ _ => ?_
  rw [Memory.read_put16, Memory.read_put16]
  split_ifs with h₁₀ h₁₁
  · rfl
  · rfl
  · exact hread c ⟨h₁₀, h₁₁⟩

/-- Buffers that differ in the field only have the same bytes after the recompute. -/
theorem State.read_rewriteHeaderChecksum_congr {s s' : State} (h c : Nat) (hcfg : s'.cfg = s.cfg)
    (hread : ∀ c, c ≠ 10 ∧ c ≠ 11 → s'.buf.read c = s.buf.read c) :
    (s'.rewriteHeaderChecksum h).buf.read c = (s.rewriteHeaderChecksum h).buf.read c := by
  rw [State.read_rewriteHeaderChecksum_eq, State.read_rewriteHeaderChecksum_eq,
    State.headerChecksum_congr h hcfg hread]
  split_ifs with h₁₀ h₁₁
  · rfl
  · rfl
  · exact hread c ⟨h₁₀, h₁₁⟩

theorem hdr_rewriteHeaderChecksum (s : State) (h : Nat) : hdr (s.rewriteHeaderChecksum h).buf = hdr s.buf :=
  hdr_congr (read_rewriteHeaderChecksum s h 0 (by decide))

theorem accepted_rewriteHeaderChecksum {s : State} {len : Nat} (h : Nat) (hacc : Accepted s.buf len) :
    Accepted (s.rewriteHeaderChecksum h).buf len :=
  accepted_of_read (read_rewriteHeaderChecksum s h 0 (by decide)) (read_rewriteHeaderChecksum s h 9 (by decide)) hacc

section accepted

variable {s : State} {len : Nat} (hacc : Accepted s.buf len)
include hacc

theorem toNat_headerChecksum_sum :
    (s.headerChecksum (hdr s.buf)).sum.toNat = onesSum (headerSumWithoutField s.buf (hdr s.buf)) := by
  obtain ⟨hlen, hlt, heven⟩ := hdr_bounds hacc
  rw [State.headerChecksum, toNat_checksum_sum_even _ _ _ hlt heven, wordSum_zeroed _ (by omega)]

/-- The stored value is never 0xFFFF (R119(c)): the complemented sum is not 0. -/
theorem headerChecksum_value_ne_max : (s.headerChecksum (hdr s.buf)).value ≠ 0xFFFF#16 := by
  intro hvalue
  have hsum : (s.headerChecksum (hdr s.buf)).sum = 0#16 := BitVec.not_eq_comm.1 hvalue
  have hzero := toNat_headerChecksum_sum hacc
  rw [hsum, eq_comm] at hzero
  exact headerSumWithoutField_ne_zero hacc (onesSum_eq_zero.1 hzero)

/-- The stored value brings the header's sum to a multiple of 65535 (R117). -/
theorem wordSum_rewriteHeaderChecksum :
    wordSum (s.rewriteHeaderChecksum (hdr s.buf)).buf 0 (hdr s.buf) % 65535 = 0 := by
  obtain ⟨hlen, -, -⟩ := hdr_bounds hacc
  have hmod := onesSum_modEq (headerSumWithoutField s.buf (hdr s.buf))
  have hle := onesSum_le (headerSumWithoutField s.buf (hdr s.buf))
  have hvalue : (s.headerChecksum (hdr s.buf)).value.toNat =
      65535 - onesSum (headerSumWithoutField s.buf (hdr s.buf)) := by
    rw [← toNat_headerChecksum_sum hacc]
    exact BitVec.toNat_not
  rw [wordSum_eq_add_field _ (by omega), ← toNat_be16_eq_num16, State.be16_rewriteHeaderChecksum, hvalue,
    headerSumWithoutField_congr (read_rewriteHeaderChecksum s _)]
  unfold Nat.ModEq at hmod
  omega

end accepted

/-! ### HDRCSUM, ECHO and VERIFY of an accepted frame (R118, R122, R175) -/

@[simp] theorem State.frameLength_vx (s : State) : s.vx.frameLength = s.frameLength := by
  rw [State.frameLength, State.vx_regs, extract_frameLen, State.frameLength]

section commands

variable {s : State} (hcap : s.frameLength ≤ s.cfg.bufCap) (hacc : Accepted s.buf s.frameLength)
include hcap hacc

theorem State.frameCommand_accepted (f : State → Nat → Nat → State) (g : State → State) :
    s.frameCommand f g = f s.vx (hdr s.buf) (s.frameLength - hdr s.buf) := by
  rw [State.frameCommand_accept hcap (validate_eq_accept.2 hacc), headerLength_eq]

/-- `VX()` keeps the frame, so that it is still accepted (R146). -/
theorem State.vx_accepted :
    s.vx.frameLength ≤ s.vx.cfg.bufCap ∧ Accepted s.vx.buf s.vx.frameLength := by
  rw [State.frameLength_vx]
  exact ⟨hcap, hacc⟩

theorem exec_hdrcsum_accepted :
    exec .hdrcsum s = .next ((s.vx.rewriteHeaderChecksum (hdr s.buf)).complete true) :=
  congrArg _ (State.frameCommand_accepted hcap hacc _ _)

theorem exec_verify_accepted : exec .verify s = .next ((s.vx.verifyHeader (hdr s.buf)).complete false) :=
  congrArg _ (State.frameCommand_accepted hcap hacc _ _)

theorem exec_echo_accepted :
    exec .echo s =
      .next
        ((((s.vx.swapEndpoints (hdr s.buf) (s.frameLength - hdr s.buf)).dropUdpChecksum (hdr s.buf)
          (s.frameLength - hdr s.buf)).rewriteHeaderChecksum (hdr s.buf)).complete true) :=
  congrArg _ (State.frameCommand_accepted hcap hacc _ _)

end commands

/-- Settles O38: `headerChecksum` is what HDRCSUM stores, and its sum is that of the header without its field. -/
theorem hdrcsumEffect : Obligations.HdrcsumEffect := fun s hcap hacc =>
  ⟨_, _, exec_parse hcap, exec_hdrcsum_accepted hcap hacc, rfl, toNat_headerChecksum_sum (s := s.vx) hacc,
    s.vx.read_rewriteHeaderChecksum_eq _⟩

/-- Settles O39: the header is an even range, so its exact sum is the sum of its words. -/
theorem verifyEffect : Obligations.VerifyEffect := by
  intro s hcap hacc
  obtain ⟨-, hlt, heven⟩ := hdr_bounds hacc
  exact ⟨_, _, exec_parse hcap, exec_verify_accepted hcap hacc, rfl, toNat_checksum_sum_even _ _ _ hlt heven⟩

/-! ### What VERIFY finds (R117, R121) -/

theorem checksum_value_eq_zero {lane : OddLane} {m : Memory} {a n : Nat} :
    (checksum lane m a n).value = 0#16 ↔ (checksum lane m a n).sum = 0xFFFF#16 := BitVec.not_eq_comm

/-- The sum of an accepted header is not 0, so that it is 0xFFFF for every multiple of 65535 (R121). -/
theorem checksum_header_eq_max {lane : OddLane} {m : Memory} {len : Nat} (hacc : Accepted m len) :
    (checksum lane m 0 (hdr m)).sum = 0xFFFF#16 ↔ wordSum m 0 (hdr m) % 65535 = 0 := by
  obtain ⟨-, hlt, heven⟩ := hdr_bounds hacc
  rw [← BitVec.toNat_inj, toNat_checksum_sum_even lane m 0 hlt heven]
  exact onesSum_eq_max.trans (and_iff_right (wordSum_header_ne_zero hacc))

/-- Settles O42: CSUM_OK is `value = 0`, which is `sum = 0xFFFF`, which is a multiple of 65535. -/
theorem verifyAcceptsBothZeros : Obligations.VerifyAcceptsBothZeros := by
  intro s hcap hacc
  have hok : csumOkFlag (checksum s.cfg.oddLane s.buf 0 (hdr s.buf)).value = true ↔
      (checksum s.cfg.oddLane s.buf 0 (hdr s.buf)).sum = 0xFFFF#16 :=
    decide_eq_true_iff.trans checksum_value_eq_zero
  exact ⟨_, exec_verify_accepted hcap hacc, hok, hok.trans (checksum_header_eq_max hacc)⟩

/-- VERIFY of a header whose words sum to a multiple of 65535. -/
theorem exec_verify_of_multiple {s : State} (hcap : s.frameLength ≤ s.cfg.bufCap)
    (hacc : Accepted s.buf s.frameLength) (hsum : wordSum s.buf 0 (hdr s.buf) % 65535 = 0) :
    ∃ u, exec .verify s = .next u ∧
      u.regs.csumSum = 0xFFFF#16 ∧ u.regs.csumResult = 0x0000#16 ∧ u.regs.csumOk = true := by
  have hmax : (checksum s.cfg.oddLane s.buf 0 (hdr s.buf)).sum = 0xFFFF#16 := (checksum_header_eq_max hacc).2 hsum
  have hzero := checksum_value_eq_zero.2 hmax
  exact ⟨_, exec_verify_accepted hcap hacc, hmax, hzero, decide_eq_true hzero⟩

/-- A recompute leaves an accepted frame with a header that verifies (R117). -/
theorem exec_verify_rewriteHeaderChecksum {u : State} {h : Nat} (hh : hdr u.buf = h)
    (hcap : u.frameLength ≤ u.cfg.bufCap) (hacc : Accepted u.buf u.frameLength) :
    ∃ v, exec .verify ((u.rewriteHeaderChecksum h).complete true) = .next v ∧
      v.regs.csumSum = 0xFFFF#16 ∧ v.regs.csumResult = 0x0000#16 ∧ v.regs.csumOk = true := by
  subst hh
  have hsum := wordSum_rewriteHeaderChecksum hacc
  refine exec_verify_of_multiple (s := (u.rewriteHeaderChecksum (hdr u.buf)).complete true) hcap
    (accepted_rewriteHeaderChecksum _ hacc) ?_
  rwa [State.complete_buf, hdr_rewriteHeaderChecksum]

/-- Steps 1 to 3 of the transform change no byte below 12 of an accepted frame (R170). -/
theorem read_transform (s : State) {h rem c : Nat} (hhdr : 20 ≤ h) (hc : c < 12) :
    ((s.swapEndpoints h rem).dropUdpChecksum h rem).buf.read c = s.buf.read c := by
  rw [State.dropUdpChecksum_buf, State.swapEndpoints_buf, read_clearUdpChecksum, if_neg (by omega), read_swapPorts,
    if_neg (by omega), if_neg (by omega), read_swapAddresses, if_neg (by omega), if_neg (by omega)]

/-- Settles O40: both commands end with the recompute, of a frame with the validated bytes of the input. -/
theorem storedHeaderChecksumVerifies : Obligations.StoredHeaderChecksumVerifies := by
  intro s hcap hacc i hi
  obtain ⟨hcap', hacc'⟩ := State.vx_accepted hcap hacc
  rcases List.mem_pair.1 hi with rfl | rfl
  · obtain ⟨v, hv⟩ := exec_verify_rewriteHeaderChecksum rfl hcap' hacc'
    exact ⟨_, v, exec_hdrcsum_accepted hcap hacc, hv⟩
  · obtain ⟨hhdr, -, -⟩ := hdr_bounds hacc
    have hread {c : Nat} (hc : c < 12) := read_transform s.vx (rem := s.frameLength - hdr s.buf) hhdr hc
    obtain ⟨v, hv⟩ := exec_verify_rewriteHeaderChecksum (hdr_congr (hread (c := 0) (by decide))) hcap'
      (accepted_of_read (hread (by decide)) (hread (by decide)) hacc')
    exact ⟨_, v, exec_echo_accepted hcap hacc, hv⟩

/-! ### A second HDRCSUM (R119) -/

/-- HDRCSUM after a recompute finds the frame still accepted, with the same header length. -/
theorem exec_hdrcsum_rewriteHeaderChecksum {u : State} (hcap : u.frameLength ≤ u.cfg.bufCap)
    (hacc : Accepted u.buf u.frameLength) :
    exec .hdrcsum ((u.rewriteHeaderChecksum (hdr u.buf)).complete true) =
      .next ((((u.rewriteHeaderChecksum (hdr u.buf)).complete true).vx.rewriteHeaderChecksum
        (hdr u.buf)).complete true) := by
  have hexec := exec_hdrcsum_accepted (s := (u.rewriteHeaderChecksum (hdr u.buf)).complete true) hcap
    (accepted_rewriteHeaderChecksum _ hacc)
  rwa [State.complete_buf, hdr_rewriteHeaderChecksum] at hexec

/-- Settles O41: the second recompute sees the same header, and the old bytes of the field do not count. -/
theorem hdrcsumIsIdempotent : Obligations.HdrcsumIsIdempotent := by
  intro s hcap hacc
  obtain ⟨hcap', hacc'⟩ := State.vx_accepted hcap hacc
  have hread := read_rewriteHeaderChecksum s.vx (hdr s.buf)
  have hsame := State.headerChecksum_congr (s := s.vx)
    (s' := ((s.vx.rewriteHeaderChecksum (hdr s.buf)).complete true).vx) (hdr s.buf) rfl hread
  refine ⟨_, _, exec_hdrcsum_accepted hcap hacc, exec_hdrcsum_rewriteHeaderChecksum hcap' hacc',
    fun c => State.read_rewriteHeaderChecksum_congr _ c rfl hread, congrArg Checksum.sum hsame,
    congrArg Checksum.value hsame, rfl, ?_, headerChecksum_value_ne_max (s := s.vx) hacc⟩
  rw [← toNat_be16_eq_num16]
  exact congrArg BitVec.toNat (s.vx.be16_rewriteHeaderChecksum _)

end Sys2Proof.Machine
end

section
/-! PROOF. The header accessor: the checks of VALIDATE as numbers, the numbers that PARSE reports for an accepted
and for a rejected frame, and what every frame command does with a rejected one. -/

namespace Sys2Proof.Machine

open Sys2Proof.Safety

/-! ### The checks in order (R140) -/

/-- `VALIDATE()` compares nibbles and a byte; as numbers they are the version, the protocol and `ihl` (R140). -/
theorem validate_eq (m : Memory) (len : Nat) :
    validate m len =
      if len < 20 then .rejShort
      else if version m ≠ 4 then .rejVersion
      else if (m.read 9).toNat ≠ 17 then .rejProto
      else if ihl m < 5 ∨ len < hdr m then .rejHdrlen
      else .accept := by
  have hversion : ipVersion m = 4 ↔ version m = 4 := by rw [← BitVec.toNat_inj, toNat_ipVersion]; rfl
  have hproto : ipProto m = Config.udpProto ↔ (m.read 9).toNat = 17 := by rw [← BitVec.toNat_inj]; rfl
  have hhdr : ihl m * 4 = hdr m := Nat.mul_comm _ _
  simp only [validate, toNat_ipIhl, hhdr, ne_eq, hversion, hproto, gt_iff_lt]

theorem validate_ne_none (m : Memory) (len : Nat) : validate m len ≠ .none := fun h => validate_means h

/-- A frame command that has ended without an error, with the result of the checks in PARSE_RES (R140). -/
structure ReportsResult (s t : State) : Prop where
  done : t.regs.done = true
  err : t.regs.err = s.regs.err
  errCode : t.regs.errCode = s.regs.errCode
  parseRes : t.regs.parseRes = validate s.buf s.frameLength

/-- What a command does between `VX()` and its completion leaves the error fields and PARSE_RES to `VX()`. -/
theorem reportsResult_complete {s u : State} {modified : Bool} (herr : u.regs.err = s.vx.regs.err)
    (hcode : u.regs.errCode = s.vx.regs.errCode) (hres : u.regs.parseRes = s.vx.regs.parseRes) :
    ReportsResult s (u.complete modified) where
  done := rfl
  err := herr.trans (extract_err ..)
  errCode := hcode.trans (extract_errCode ..)
  parseRes := hres

/-- A frame that fits takes one of the two ways of a frame command, both from `VX()`. -/
theorem State.frameCommand_of_fits {P : State → Prop} {s : State} {f : State → Nat → Nat → State}
    {g : State → State} (hcap : s.frameLength ≤ s.cfg.bufCap) (hf : ∀ h rem, P (f s.vx h rem))
    (hg : P (g s.vx)) : P (s.frameCommand f g) := by
  by_cases hv : validate s.buf s.frameLength = .accept
  · rw [State.frameCommand_accept hcap hv]
    exact hf _ _
  · rw [State.frameCommand_reject hcap hv]
    exact hg

theorem exec_frameCommand_reportsResult {i : Instr} (hi : i ∈ frameCommands) {s : State}
    (hcap : s.frameLength ≤ s.cfg.bufCap) : ∃ t, exec i s = .next t ∧ ReportsResult s t := by
  cases i
  case parse | swap | hdrcsum | verify | echo =>
    exact ⟨_, rfl, State.frameCommand_of_fits (P := ReportsResult s) hcap
      (fun _ _ => reportsResult_complete rfl rfl rfl) (reportsResult_complete rfl rfl rfl)⟩
  all_goals simp [frameCommands] at hi

/-- Settles O43: every frame command reports what `VALIDATE()` finds, and `validate_eq` is the chain of checks. -/
theorem firstFailingCheckDecides : Obligations.FirstFailingCheckDecides := by
  intro s hcap i hi
  obtain ⟨t, he, hdone, herr, hcode, hres⟩ := exec_frameCommand_reportsResult hi hcap
  exact ⟨t, he, hdone, herr, hcode, hres.trans (validate_eq _ _)⟩

/-! ### The IPv4 registers (R36–R38, R146) -/

/-- The UDP part of `VX()` writes none of the IPv4 registers, whatever the result of the checks. -/
theorem extract_ip_eq_extractIp (m : Memory) (len : Nat) (r : Regs) :
    (extract m len r).ipInfo = (extractIp m len r).ipInfo ∧
      (extract m len r).ipSrc = (extractIp m len r).ipSrc ∧
      (extract m len r).ipDst = (extractIp m len r).ipDst := by
  by_cases hv : validate m len = .accept
  · rw [extract_accept hv]
    exact ⟨rfl, rfl, rfl⟩
  · rw [extract_reject hv]
    exact ⟨rfl, rfl, rfl⟩

/-- The IPv4 registers of a frame that holds the header, as numbers; byte 0 is VERSION and IHL. -/
theorem extract_ip_toNat {m : Memory} {len : Nat} (r : Regs) (hlen : 20 ≤ len) :
    (extract m len r).ipInfo.toNat =
        65536 * num16 m 10 + 256 * (m.read 9).toNat + (m.read 0).toNat ∧
      (extract m len r).ipSrc.toNat = num32 m 12 ∧ (extract m len r).ipDst.toNat = num32 m 16 := by
  obtain ⟨hinfo, hsrc, hdst⟩ := extract_ip_eq_extractIp m len r
  rw [hinfo, hsrc, hdst, extractIp, if_pos hlen]
  refine ⟨?_, toNat_be32_eq_num32 m 12, toNat_be32_eq_num32 m 16⟩
  have hcsum : (ipChecksum m).toNat = num16 m 10 := toNat_be16_eq_num16 m 10
  have hproto : (ipProto m).toNat = (m.read 9).toNat := rfl
  simp only [toNat_append_eq, hcsum, hproto, toNat_ipVersion, toNat_ipIhl, version, ihl]
  omega

/-! ### The UDP and payload registers of an accepted frame (R39–R42, R143) -/

/-- A UDP field as a number, 0 unless it lies inside the frame. -/
theorem toNat_udpField (m : Memory) (h rem off : Nat) :
    (if off + 2 ≤ rem then m.be16 (h + off) else 0).toNat = udpField m h rem off := by
  unfold udpField
  split
  · exact toNat_be16_eq_num16 m _
  · rfl

theorem toNat_extractUdp_udpPorts (m : Memory) (h rem : Nat) (r : Regs) :
    (extractUdp m h rem r).udpPorts.toNat = 65536 * udpField m h rem 0 + udpField m h rem 2 := by
  have hsport : (udpSport m h rem).toNat = udpField m h rem 0 := toNat_udpField m h rem 0
  have hdport : (udpDport m h rem).toNat = udpField m h rem 2 := toNat_udpField m h rem 2
  rw [extractUdp, toNat_append_eq, hsport, hdport]
  rfl

theorem toNat_extractUdp_udpInfo (m : Memory) (h rem : Nat) (r : Regs) :
    (extractUdp m h rem r).udpInfo.toNat = 65536 * udpField m h rem 4 + udpField m h rem 6 := by
  have hlength : (udpLength m h rem).toNat = udpField m h rem 4 := toNat_udpField m h rem 4
  have hcsum : (udpChecksum m h rem).toNat = udpField m h rem 6 := toNat_udpField m h rem 6
  rw [extractUdp, toNat_append_eq, hlength, hcsum]
  rfl

/-- HDR_INFO, UDP_PORTS, UDP_INFO and PAYLOAD of an accepted frame, as numbers: its header has at most 60 bytes, so
that HDR_INFO and PAYLOAD hold its length. -/
theorem extract_udp_toNat {m : Memory} {len : Nat} (r : Regs) (hacc : Accepted m len) (hlt : len < 65536) :
    (extract m len r).hdrInfo.toNat = 256 * min (len - hdr m) 8 + hdr m ∧
      (extract m len r).udpPorts.toNat =
        65536 * udpField m (hdr m) (len - hdr m) 0 + udpField m (hdr m) (len - hdr m) 2 ∧
      (extract m len r).udpInfo.toNat =
        65536 * udpField m (hdr m) (len - hdr m) 4 + udpField m (hdr m) (len - hdr m) 6 ∧
      (extract m len r).payload.toNat = 65536 * (hdr m + 8) + (len - hdr m - 8) := by
  have hhdr : hdr m ≤ 60 := by unfold hdr ihl; omega
  have hlength : len - hdr m - 8 < 65536 := by omega
  have hinfo := extractUdp_hdrInfo m (len - hdr m) (extractIp m len r) (h := hdr m) (by omega)
  have hpayload := extractUdp_payload m (len - hdr m) (extractIp m len r) (h := hdr m) (by omega)
  rw [Nat.mod_eq_of_lt hlength] at hpayload
  rw [extract_accept (validate_eq_accept.2 hacc), headerLength_eq]
  exact ⟨hinfo, toNat_extractUdp_udpPorts _ _ _ (extractIp m len r),
    toNat_extractUdp_udpInfo _ _ _ (extractIp m len r), hpayload⟩

/-! ### PARSE (R150) -/

/-- Byte 0 of an accepted frame: version 4 above `ihl`. -/
theorem read_zero_of_accepted {m : Memory} {len : Nat} (hacc : Accepted m len) :
    (m.read 0).toNat = 16 * 4 + ihl m := by
  obtain ⟨-, hversion, -⟩ := hacc
  unfold version at hversion
  unfold ihl
  omega

/-- Settles O44: `VX()` writes the extracted fields and nothing else, and PARSE only completes. -/
theorem parseReportsAcceptedFrame : Obligations.ParseReportsAcceptedFrame := by
  intro s hcap hacc
  have ⟨hlen, _, hproto, _⟩ := hacc
  have hv : validate s.buf s.frameLength = .accept := validate_eq_accept.2 hacc
  have hshort : (extract s.buf s.frameLength s.regs).udpShort = decide (s.frameLength - hdr s.buf < 8) := by
    rw [extract_accept hv, headerLength_eq]
    rfl
  have hframe := extract_frame s.buf s.frameLength s.regs
  rw [extract_parseRes, hv, hshort] at hframe
  obtain ⟨hinfo, hsrc, hdst⟩ := extract_ip_toNat (m := s.buf) s.regs hlen
  rw [read_zero_of_accepted hacc, hproto, ← Nat.add_assoc] at hinfo
  exact ⟨_, exec_parse hcap, congrArg (fun r => State.complete { s with regs := r } false) hframe, hinfo, hsrc,
    hdst, extract_udp_toNat s.regs hacc s.regs.frameLen.isLt⟩

/-- Settles O45: `VX()` clears the UDP registers of a rejected frame, and reads the IPv4 fields if they are there. -/
theorem parseReportsRejectedFrame : Obligations.ParseReportsRejectedFrame := by
  intro s hcap hrej
  have hv : validate s.buf s.frameLength ≠ .accept := mt validate_eq_accept.1 hrej
  obtain ⟨hhdr, hports, hudp, hpayload, hshort⟩ := (fieldsInv_vx_rejected hv).noUdp hv
  have hframe := extract_frame s.buf s.frameLength s.regs
  rw [State.vx_regs] at hhdr hports hudp hpayload hshort
  rw [hhdr, hports, hudp, hpayload, hshort] at hframe
  exact ⟨_, exec_parse hcap, congrArg (fun r => State.complete { s with regs := r } false) hframe, hv,
    validate_ne_none _ _, extract_ip_short, extract_ip_toNat s.regs⟩

/-! ### Rejected frames (R148) -/

@[simp] theorem extract_csumOk (m : Memory) (len : Nat) (r : Regs) : (extract m len r).csumOk = r.csumOk := by
  rw [extract_frame]

theorem State.frameCommand_rejected {s : State} (hcap : s.frameLength ≤ s.cfg.bufCap)
    (hrej : ¬Accepted s.buf s.frameLength) (f : State → Nat → Nat → State) (g : State → State) :
    s.frameCommand f g = g s.vx :=
  State.frameCommand_reject hcap (mt validate_eq_accept.1 hrej)

/-- Settles O46: with a rejected frame every frame command completes straight after `VX()`, VERIFY once it has
cleared CSUM_OK. -/
theorem rejectedFrameIsLeftUnchanged : Obligations.RejectedFrameIsLeftUnchanged := by
  intro s hcap hrej
  have hends := State.frameCommand_rejected hcap hrej
  exact ⟨s.vx.complete false, exec_parse hcap, rfl, rfl, extract_csumSum .., extract_csumResult ..,
    extract_csumOk .., congrArg _ (hends _ _), congrArg _ (hends _ _), congrArg _ (hends _ _),
    congrArg _ (hends _ _)⟩

end Sys2Proof.Machine
end

section
/-! PROOF. The echo transform: SWAP as an exchange of offsets, which permutes the words of the header, and ECHO as
that exchange with the UDP checksum cleared and the header's checksum stored again. -/

namespace Sys2Proof.Machine

open Sys2Proof.Safety

/-! ### The exchange of offsets (R171, R173) -/

/-- The offset whose byte SWAP brings to offset `c`, in a frame of `len` bytes with an `h`-byte header. -/
def swapOffset (h len c : Nat) : Nat :=
  if 12 ≤ c ∧ c < 16 then c + 4
  else if 16 ≤ c ∧ c < 20 then c - 4
  else if h + 4 ≤ len ∧ h ≤ c ∧ c < h + 2 then c + 2
  else if h + 4 ≤ len ∧ h + 2 ≤ c ∧ c < h + 4 then c - 2
  else c

/-- The same exchange on the header's words: words 6 and 7 are the source address, 8 and 9 the destination. -/
def swapWord (j : Nat) : Nat :=
  if 6 ≤ j ∧ j < 8 then j + 2 else if 8 ≤ j ∧ j < 10 then j - 2 else j

theorem swapWord_swapWord (j : Nat) : swapWord (swapWord j) = j := by
  unfold swapWord
  split_ifs <;> omega

theorem swapWord_lt {n j : Nat} (hn : 10 ≤ n) (hj : j < n) : swapWord j < n := by
  unfold swapWord
  split_ifs <;> omega

/-- Inside the header whole words move. -/
theorem swapOffset_word {h j : Nat} (len : Nat) (hj : 2 * j + 1 < h) :
    swapOffset h len (2 * j) = 2 * swapWord j ∧ swapOffset h len (2 * j + 1) = 2 * swapWord j + 1 := by
  unfold swapOffset swapWord
  split_ifs <;> omega

section offsets

variable {h : Nat} (len : Nat) (hhdr : 20 ≤ h)
include hhdr

/-- The ports lie behind the addresses, so the two exchanges do not meet. -/
theorem swapOffset_swapOffset (c : Nat) : swapOffset h len (swapOffset h len c) = c := by
  unfold swapOffset
  split_ifs <;> omega

theorem swapOffset_of_lt {c : Nat} (hc : c < 12) : swapOffset h len c = c := by
  unfold swapOffset
  split_ifs <;> omega

/-- Neither the UDP checksum nor anything else behind the ports moves. -/
theorem swapOffset_of_ge {c : Nat} (hc : h + 4 ≤ c) : swapOffset h len c = c := by
  unfold swapOffset
  split_ifs <;> omega

end offsets

/-! ### The header's sum under the exchange (R172(b)) -/

section sums

variable {m m' : Memory} {h len : Nat} (hhdr : 20 ≤ h) (hread : ∀ c < h, m'.read c = m.read (swapOffset h len c))
include hhdr hread

theorem wordSum_of_swapped : wordSum m' 0 h = wordSum m 0 h := by
  have hword : ∀ j ∈ Finset.range (h / 2), num16 m' (0 + 2 * j) = num16 m (0 + 2 * swapWord j) := by
    intro j hj
    have hlt := Finset.mem_range.1 hj
    obtain ⟨heven, hodd⟩ := swapOffset_word (h := h) (j := j) len (by omega)
    rw [Nat.zero_add, Nat.zero_add, num16, num16, hread _ (by omega), hread _ (by omega), heven, hodd]
  have hmaps : ∀ j ∈ Finset.range (h / 2), swapWord j ∈ Finset.range (h / 2) := fun j hj =>
    Finset.mem_range.2 (swapWord_lt (by omega) (Finset.mem_range.1 hj))
  exact Finset.sum_nbij' swapWord swapWord hmaps hmaps (fun j _ => swapWord_swapWord j)
    (fun j _ => swapWord_swapWord j) hword

theorem headerSumWithoutField_of_swapped : headerSumWithoutField m' h = headerSumWithoutField m h := by
  have hsum := wordSum_of_swapped hhdr hread
  have hfield : num16 m' 10 = num16 m 10 := by
    rw [num16, num16, hread _ (by omega), hread _ (by omega), swapOffset_of_lt len hhdr (by decide),
      swapOffset_of_lt len hhdr (by decide)]
  rw [wordSum_eq_add_field m' (by omega), wordSum_eq_add_field m (by omega), hfield] at hsum
  exact Nat.add_right_cancel hsum

end sums

/-! ### SWAP of an accepted frame (R171) -/

/-- The state that SWAP leaves of an accepted frame. -/
def State.swapped (s : State) : State :=
  (s.vx.swapEndpoints (hdr s.buf) (s.frameLength - hdr s.buf)).complete true

theorem exec_swap_accepted {s : State} (hcap : s.frameLength ≤ s.cfg.bufCap) (hacc : Accepted s.buf s.frameLength) :
    exec .swap s = .next s.swapped :=
  congrArg _ (State.frameCommand_accepted hcap hacc _ _)

@[simp] theorem State.frameLength_swapped (s : State) : s.swapped.frameLength = s.frameLength := s.frameLength_vx

theorem State.fits_swapped {s : State} (hcap : s.frameLength ≤ s.cfg.bufCap) :
    s.swapped.frameLength ≤ s.swapped.cfg.bufCap := s.frameLength_swapped.trans_le hcap

section swapped

variable {s : State} (hacc : Accepted s.buf s.frameLength)
include hacc

theorem read_swapped (c : Nat) :
    s.swapped.buf.read c = s.buf.read (swapOffset (hdr s.buf) s.frameLength c) := by
  obtain ⟨hhdr, -, -⟩ := hdr_bounds hacc
  rw [State.swapped, State.complete_buf, State.swapEndpoints_buf, State.vx_buf, read_swapPorts,
    read_swapAddresses, read_swapAddresses, read_swapAddresses]
  simp only [← apply_ite s.buf.read]
  congr 1
  unfold swapOffset
  split_ifs <;> omega

theorem read_swapped_of_lt {c : Nat} (hc : c < 12) : s.swapped.buf.read c = s.buf.read c := by
  obtain ⟨hhdr, -, -⟩ := hdr_bounds hacc
  rw [read_swapped hacc, swapOffset_of_lt _ hhdr hc]

theorem hdr_swapped : hdr s.swapped.buf = hdr s.buf := hdr_congr (read_swapped_of_lt hacc (by decide))

theorem accepted_swapped : Accepted s.swapped.buf s.swapped.frameLength := by
  rw [State.frameLength_swapped]
  exact accepted_of_read (read_swapped_of_lt hacc (by decide)) (read_swapped_of_lt hacc (by decide)) hacc

end swapped

/-- Settles O50: the bytes are those of `swapOffset`, written out. -/
theorem swapEffect : Obligations.SwapEffect := by
  intro s hcap hacc
  refine ⟨_, _, exec_parse hcap, exec_swap_accepted hcap hacc, rfl, fun c => ?_⟩
  simp only [← apply_ite s.buf.read]
  exact read_swapped hacc c

/-- Settles O51: SWAP keeps the header's length and the frame's, so the second exchange undoes the first. -/
theorem swapIsAnInvolution : Obligations.SwapIsAnInvolution := by
  intro s hcap hacc
  obtain ⟨hhdr, -, -⟩ := hdr_bounds hacc
  have hcap' := State.fits_swapped hcap
  have hacc' := accepted_swapped hacc
  refine ⟨_, _, exec_swap_accepted hcap hacc, exec_swap_accepted hcap' hacc', validate_eq_accept.2 hacc',
    fun c => ?_⟩
  rw [read_swapped hacc', read_swapped hacc, hdr_swapped hacc, State.frameLength_swapped,
    swapOffset_swapOffset _ hhdr]

theorem checksum_header_swapped {s : State} (hacc : Accepted s.buf s.frameLength) :
    checksum s.swapped.cfg.oddLane s.swapped.buf 0 (hdr s.swapped.buf) =
      checksum s.cfg.oddLane s.buf 0 (hdr s.buf) := by
  obtain ⟨hhdr, hlt, heven⟩ := hdr_bounds hacc
  apply checksum_eq_of_sum
  rw [hdr_swapped hacc, toNat_checksum_sum_even _ _ _ hlt heven, toNat_checksum_sum_even _ _ _ hlt heven,
    wordSum_of_swapped hhdr fun c _ => read_swapped hacc c]

/-- Settles O52: VERIFY reports CK of the header, whose words SWAP only permutes. -/
theorem swapKeepsHeaderChecksum : Obligations.SwapKeepsHeaderChecksum := by
  intro s hcap hacc
  have hcap' := State.fits_swapped hcap
  have hck := checksum_header_swapped hacc
  exact ⟨_, _, _, exec_verify_accepted hcap hacc, exec_swap_accepted hcap hacc,
    exec_verify_accepted hcap' (accepted_swapped hacc), congrArg Checksum.sum hck, congrArg Checksum.value hck,
    congrArg (fun ck : Checksum => csumOkFlag ck.value) hck⟩

/-! ### ECHO of an accepted frame (R175) -/

/-- The state after steps 1 to 3 of ECHO: everything but the recompute. -/
def State.transformed (s : State) : State :=
  (s.vx.swapEndpoints (hdr s.buf) (s.frameLength - hdr s.buf)).dropUdpChecksum (hdr s.buf)
    (s.frameLength - hdr s.buf)

/-- The state that ECHO leaves of an accepted frame. -/
def State.echoed (s : State) : State := (s.transformed.rewriteHeaderChecksum (hdr s.buf)).complete true

theorem exec_echo_echoed {s : State} (hcap : s.frameLength ≤ s.cfg.bufCap) (hacc : Accepted s.buf s.frameLength) :
    exec .echo s = .next s.echoed :=
  exec_echo_accepted hcap hacc

@[simp] theorem State.frameLength_echoed (s : State) : s.echoed.frameLength = s.frameLength := s.frameLength_vx

theorem State.fits_echoed {s : State} (hcap : s.frameLength ≤ s.cfg.bufCap) :
    s.echoed.frameLength ≤ s.echoed.cfg.bufCap := s.frameLength_echoed.trans_le hcap

/-- Steps 1 to 3 are SWAP's steps and the clearing of the UDP checksum. -/
theorem read_transformed (s : State) (c : Nat) :
    s.transformed.buf.read c =
      if hdr s.buf + 8 ≤ s.frameLength ∧ (c = hdr s.buf + 6 ∨ c = hdr s.buf + 7) then 0
      else s.swapped.buf.read c := by
  rw [State.transformed, State.dropUdpChecksum_buf, read_clearUdpChecksum]
  exact if_congr (by omega) rfl rfl

theorem read_echoed (s : State) (c : Nat) :
    s.echoed.buf.read c =
      if c = 10 then s.echoed.regs.csumResult.extractLsb' 8 8
      else if c = 11 then s.echoed.regs.csumResult.extractLsb' 0 8
      else if hdr s.buf + 8 ≤ s.frameLength ∧ (c = hdr s.buf + 6 ∨ c = hdr s.buf + 7) then 0
      else s.swapped.buf.read c := by
  rw [← read_transformed]
  exact State.read_rewriteHeaderChecksum_eq ..

section echoed

variable {s : State} (hacc : Accepted s.buf s.frameLength)
include hacc

theorem read_transformed_of_lt {c : Nat} (hc : c < hdr s.buf) :
    s.transformed.buf.read c = s.buf.read (swapOffset (hdr s.buf) s.frameLength c) := by
  rw [read_transformed, if_neg (by omega), read_swapped hacc]

theorem hdr_transformed : hdr s.transformed.buf = hdr s.buf := by
  obtain ⟨hhdr, -, -⟩ := hdr_bounds hacc
  exact hdr_congr (read_transform s.vx hhdr (by decide))

theorem accepted_transformed : Accepted s.transformed.buf s.frameLength := by
  obtain ⟨hhdr, -, -⟩ := hdr_bounds hacc
  exact accepted_of_read (read_transform s.vx hhdr (by decide)) (read_transform s.vx hhdr (by decide)) hacc

/-- The stored sum is that of the input header, its field taken as 0. -/
theorem toNat_echoed_csumSum :
    s.echoed.regs.csumSum.toNat = onesSum (headerSumWithoutField s.buf (hdr s.buf)) := by
  obtain ⟨hhdr, -, -⟩ := hdr_bounds hacc
  have hsum := toNat_headerChecksum_sum (accepted_transformed hacc)
  rw [hdr_transformed hacc, headerSumWithoutField_of_swapped hhdr fun c => read_transformed_of_lt hacc] at hsum
  exact hsum

theorem hdr_echoed : hdr s.echoed.buf = hdr s.buf :=
  (hdr_rewriteHeaderChecksum s.transformed _).trans (hdr_transformed hacc)

theorem accepted_echoed : Accepted s.echoed.buf s.echoed.frameLength := by
  rw [State.frameLength_echoed]
  exact accepted_rewriteHeaderChecksum _ (accepted_transformed hacc)

end echoed

/-- Settles O53: ECHO's registers are PARSE's but for the recompute, and `read_echoed` gives its bytes. -/
theorem echoEffect : Obligations.EchoEffect := fun s hcap hacc =>
  ⟨_, _, _, exec_parse hcap, exec_swap_accepted hcap hacc, exec_echo_echoed hcap hacc, rfl,
    toNat_echoed_csumSum hacc, read_echoed s⟩

/-- Settles O54: outside the named ranges `read_echoed` and `swapOffset` give the byte that was there. -/
theorem echoLeavesOtherBytes : Obligations.EchoLeavesOtherBytes := by
  intro s hcap hacc
  obtain ⟨hhdr, -, -⟩ := hdr_bounds hacc
  refine ⟨_, exec_echo_echoed hcap hacc, extract_frameLen .., fun hudp => ?_, fun c hne => ?_⟩
  · have hcleared {c : Nat} (hc : c = hdr s.buf + 6 ∨ c = hdr s.buf + 7) : s.echoed.buf.read c = 0 := by
      rw [read_echoed, if_neg (by omega), if_neg (by omega), if_pos ⟨hudp, hc⟩]
    rw [num16, hcleared (.inl rfl), hcleared (.inr rfl)]
    rfl
  · by_contra hout
    have hlen : s.regs.frameLen.toNat = s.frameLength := rfl
    have hfixed : swapOffset (hdr s.buf) s.frameLength c = c := by
      unfold swapOffset
      split_ifs <;> omega
    apply hne
    rw [read_echoed, if_neg (by omega), if_neg (by omega), if_neg (by omega), read_swapped hacc, hfixed]

/-! ### A header that verifies (R175's corner case, R178) -/

/-- The recompute of a header that verifies finds the value that its field holds, unless the field is the second
zero (R121): both are the residue below 65535 that completes the sum. -/
theorem echoed_csumResult_of_verifies {s : State} (hacc : Accepted s.buf s.frameLength)
    (hsum : wordSum s.buf 0 (hdr s.buf) % 65535 = 0) (hfield : num16 s.buf 10 ≠ 0xFFFF) :
    s.echoed.regs.csumResult = s.buf.be16 10 := by
  obtain ⟨hhdr, -, -⟩ := hdr_bounds hacc
  have hvalue : s.echoed.regs.csumResult.toNat =
      65535 - onesSum (headerSumWithoutField s.buf (hdr s.buf)) := by
    rw [← toNat_echoed_csumSum hacc]
    exact BitVec.toNat_not
  have hmod := onesSum_modEq (headerSumWithoutField s.buf (hdr s.buf))
  have hle := onesSum_le (headerSumWithoutField s.buf (hdr s.buf))
  have hpos := mt onesSum_eq_zero.1 (headerSumWithoutField_ne_zero hacc)
  have hlt := num16_lt s.buf 10
  rw [wordSum_eq_add_field _ (by omega)] at hsum
  unfold Nat.ModEq at hmod
  apply BitVec.eq_of_toNat_eq
  rw [hvalue, toNat_be16_eq_num16]
  omega

theorem read_echoed_of_verifies {s : State} (hacc : Accepted s.buf s.frameLength)
    (hsum : wordSum s.buf 0 (hdr s.buf) % 65535 = 0) (hfield : num16 s.buf 10 ≠ 0xFFFF) :
    s.echoed.buf.read 10 = s.buf.read 10 ∧ s.echoed.buf.read 11 = s.buf.read 11 := by
  have hvalue := echoed_csumResult_of_verifies hacc hsum hfield
  rw [read_echoed, read_echoed, hvalue]
  exact ⟨byte_hi _ _, byte_lo _ _⟩

/-- Settles O55: the value that ECHO stores is the one that the field held. -/
theorem echoKeepsCorrectChecksum : Obligations.EchoKeepsCorrectChecksum := fun _ hcap hacc hsum hfield =>
  ⟨_, exec_echo_echoed hcap hacc, read_echoed_of_verifies hacc hsum hfield⟩

/-- After ECHO the header verifies, and its field is not the second zero (R117, R119(c)). -/
theorem echoed_verifies {s : State} (hacc : Accepted s.buf s.frameLength) :
    wordSum s.echoed.buf 0 (hdr s.echoed.buf) % 65535 = 0 ∧ num16 s.echoed.buf 10 ≠ 0xFFFF := by
  have hacc' := accepted_transformed hacc
  have hhdr : hdr s.echoed.buf = hdr s.transformed.buf := (hdr_echoed hacc).trans (hdr_transformed hacc).symm
  have hbuf : s.echoed.buf = (s.transformed.rewriteHeaderChecksum (hdr s.transformed.buf)).buf := by
    rw [hdr_transformed hacc]
    rfl
  rw [hhdr, hbuf, ← toNat_be16_eq_num16, State.be16_rewriteHeaderChecksum]
  exact ⟨wordSum_rewriteHeaderChecksum hacc', fun h => headerChecksum_value_ne_max hacc' (BitVec.eq_of_toNat_eq h)⟩

/-- Settles O56: the second ECHO stores the checksum that stands there already (O55's case) and clears a UDP checksum
that is 0 already, so that of its steps only SWAP's change a byte. -/
theorem echoTwiceIsEchoThenSwap : Obligations.EchoTwiceIsEchoThenSwap := by
  intro s hcap hacc
  have hcap' := State.fits_echoed hcap
  have hacc' := accepted_echoed hacc
  obtain ⟨hhdr, -, -⟩ := hdr_bounds hacc'
  obtain ⟨hsum, hfield⟩ := echoed_verifies hacc
  obtain ⟨h₁₀, h₁₁⟩ := read_echoed_of_verifies hacc' hsum hfield
  refine ⟨_, _, _, exec_echo_echoed hcap hacc, exec_echo_echoed hcap' hacc', exec_swap_accepted hcap' hacc',
    fun c => ?_⟩
  by_cases hc : c = 10 ∨ c = 11
  · rw [read_swapped_of_lt hacc' (by omega)]
    rcases hc with rfl | rfl
    · exact h₁₀
    · exact h₁₁
  · rw [read_echoed, if_neg (by omega), if_neg (by omega)]
    split_ifs with hudp
    · rw [read_swapped hacc', swapOffset_of_ge _ hhdr (by omega), read_echoed, if_neg (by omega), if_neg (by omega),
        if_pos (by rwa [hdr_echoed hacc, State.frameLength_echoed] at hudp)]
    · rfl

end Sys2Proof.Machine
end

section
/-! PROOF. The control family: what NOP does, and the writes to CMD, CTRL and STATUS of an idle and of a busy block. -/

namespace Sys2Proof.Machine

/-! ### Writes to a named register while the engine is busy (R73) -/

/-- A write to a named register that is not held is performed, whatever PEND holds. -/
theorem execWr32_offset_unheld {s : State} (r : RegName) (d : Word)
    (hheld : s.holds true .four r.offset.toNat = false) :
    exec (.wr32 r.offset d) s = .next { s.writeNamed d r with bus := .writeDone } := by
  obtain ⟨hreg, hal⟩ := offset_register r
  have hl : accessLegal s.cfg .four r.offset.toNat = true := accessLegal_registers (by omega) hal
  have hwrite : s.writeAccess .four r.offset.toNat d = s.writeNamed d r := by
    rw [State.writeAccess, regionOf_registers (by omega), State.writeReg, regAt_offset]
  rcases s.hostWrite_cases .four r.offset.toNat d with ⟨hl', -⟩ | ⟨-, hheld', -⟩ | ⟨-, -, he⟩
  · simp [hl] at hl'
  · simp [hheld] at hheld'
  · rw [hwrite] at he
    exact congrArg _ he

/-- The hold of a write exempts CTRL alone. -/
theorem holdExempt_write_offset {r : RegName} (hr : r ≠ .ctrl) : holdExempt true r.offset.toNat = false := by
  cases r
  case ctrl => exact absurd rfl hr
  all_goals rfl

/-- A write to a named register other than CTRL is held while the engine is busy. -/
theorem execWr32_offset_held {s : State} (hp : s.pend ≠ none) {r : RegName} (hr : r ≠ .ctrl) (d : Word) :
    exec (.wr32 r.offset d) s = .next { s with bus := .held } := by
  obtain ⟨hreg, hal⟩ := offset_register r
  have hl := accessLegal_registers (p := s.cfg) (a := r.offset.toNat) (by omega) hal
  exact exec_writeInstr_held (size := .four) hp (accessLegal_iff.1 hl) (holdExempt_write_offset hr)

/-- A write to CTRL is performed, busy or not. -/
theorem execWr32_ctrl (s : State) (d : Word) :
    exec (.wr32 RegName.ctrl.offset d) s = .next { s.writeNamed d .ctrl with bus := .writeDone } := by
  have hheld : s.holds true .four RegName.ctrl.offset.toNat = false := by
    simp [State.holds, holdExempt, RegName.offset]
  exact execWr32_offset_unheld .ctrl d hheld

/-! ### The acknowledgement (R195) -/

/-- The acknowledgement clears each bit that its write names, and keeps the others. -/
theorem State.acknowledge_eq (s : State) (d : Word) :
    s.acknowledge d =
      { s with
        regs :=
          { s.regs with
            done := if d.getLsbD 1 then false else s.regs.done
            err := if d.getLsbD 2 then false else s.regs.err
            errCode := if d.getLsbD 2 then .none else s.regs.errCode } } := by
  have cleared (b c : Bool) : (b && !c) = if c then false else b := by cases c <;> simp
  rw [State.acknowledge, cleared, cleared]

/-! ### The statements -/

/-- Settles O13: NOP is `complete(0)` by definition. -/
theorem nopCompletes : Obligations.NopCompletes := fun _ => rfl

/-- Settles O14: an idle block accepts the command, and a busy one holds the write. -/
theorem commandAcceptance : Obligations.CommandAcceptance := fun _ w =>
  ⟨fun hp => ⟨_, execWr32_offset hp .cmd w, rfl, rfl⟩,
    fun hp => execWr32_offset_held hp (r := .cmd) (by decide) w⟩

/-- Settles O15: the write is never held, and bit 31 chooses between the soft reset and the enables. -/
theorem ctrlWriteEffect : Obligations.CtrlWriteEffect := by
  intro s d
  have hwrite := execWr32_ctrl s d
  rw [State.writeNamed] at hwrite
  refine ⟨fun hreset => ?_, fun hkeep => ?_⟩
  · rw [if_pos hreset] at hwrite
    exact ⟨_, hwrite, rfl, rfl, rfl, rfl, rfl⟩
  · rwa [if_neg (Bool.eq_false_iff.1 hkeep)] at hwrite

/-- Settles O16: an idle block takes the acknowledgement, and a busy one holds the write. -/
theorem statusWriteAcknowledges : Obligations.StatusWriteAcknowledges := by
  intro s d
  refine ⟨fun hp => ?_, fun hp => execWr32_offset_held hp (r := .status) (by decide) d⟩
  have hwrite := execWr32_offset hp .status d
  rwa [State.writeNamed, State.acknowledge_eq] at hwrite

end Sys2Proof.Machine
end

section
/-! PROOF. The exceptions: the command errors of an illegal word and of a frame beyond the buffer, the stickiness of
ERR, the bus errors, and the soft reset that races a pending command. -/

namespace Sys2Proof.Machine

open Sys2Proof.Safety

/-! ### Illegal command words (R214) -/

theorem toNat_lt_of_decodeCommand {w : Word} {i : Instr} (h : decodeCommand w = .ok i) : w.toNat < 7 := by
  rcases (legalCommandWords w i).1 h with ⟨rfl, -⟩ | ⟨rfl, -⟩ | ⟨rfl, -⟩ | ⟨rfl, -⟩ | ⟨rfl, -⟩ | ⟨rfl, -⟩ |
    ⟨rfl, -⟩
  all_goals decide

theorem State.engineStep_illegal {w : Word} (h : 7 ≤ w.toNat) (s : State) :
    s.engineStep w = .next (raised s .illegalCmd) := by
  rcases s.engineStep_cases w with ⟨i, -, hdec, -⟩ | he
  · exact absurd (toNat_lt_of_decodeCommand hdec) (Nat.not_lt.2 h)
  · exact he

/-- Settles O7: such a word is no number below 7, and the engine raises without a look at FRAME_LEN. -/
theorem illegalCommandWordRaises : Obligations.IllegalCommandWordRaises := by
  intro s w hr hp hw ht
  have hillegal : 7 ≤ w.toNat := by omega
  rw [step_engineTurn hr hp ht, State.engineStep_illegal hillegal]
  rfl

/-! ### Command errors (R211, R220) -/

/-- A buffer command checks FRAME_LEN before anything else (R217). -/
theorem exec_bufferCommand_lenRange {s : State} (hlen : s.cfg.bufCap < s.frameLength) {i : Instr}
    (hi : i ∈ bufferCommands) : exec i s = .next (raised s .lenRange) := by
  cases i
  case csum =>
    change execCsum s = _
    rw [execCsum, if_pos hlen]
    rfl
  case parse | swap | hdrcsum | verify | echo => exact congrArg _ (State.frameCommand_lenRange hlen)
  all_goals simp [bufferCommands] at hi

/-- Settles O37: the check of the buffer commands, which NOP does not make. -/
theorem lengthErrorStopsBufferCommands : Obligations.LengthErrorStopsBufferCommands := fun _ hlen =>
  ⟨fun _ hi => exec_bufferCommand_lenRange hlen hi, _, nopCompletes _, rfl, rfl⟩

/-- A command raises one error, or leaves ERR and ERR_CODE as they were. -/
theorem CommandResult.raised_or_keeps_err {s t : State} (h : CommandResult s t) :
    (∃ c, c ≠ .none ∧ t = raised s c) ∨ (t.regs.err = s.regs.err ∧ t.regs.errCode = s.regs.errCode) := by
  cases h with
  | error hcode => exact .inl ⟨_, hcode, rfl⟩
  | unparsed hu =>
    obtain ⟨_, _, _, _, -, rfl⟩ := hu
    exact .inr ⟨rfl, rfl⟩
  | parsed _ _ hu =>
    obtain ⟨_, _, _, _, -, rfl⟩ := hu
    exact .inr ⟨extract_err _ _ _, extract_errCode _ _ _⟩

/-- Settles O17: an error sets ERR, and every other end of a command keeps it. -/
theorem errorIsSticky : Obligations.ErrorIsSticky := by
  intro i hi s
  obtain ⟨t, he, hres⟩ := command_result hi s
  have hcases := hres.raised_or_keeps_err
  refine ⟨t, he, fun herr => ?_, hcases⟩
  obtain ⟨c, -, rfl⟩ | ⟨hkeep, -⟩ := hcases
  · rfl
  · exact hkeep.trans herr

/-! ### Bus errors (R216) -/

section busError

variable {s : State} {size : AccessSize} {a : Half}

theorem accessLegal_of_busErrorAt {p : Params} {n : Nat} (h : BusErrorAt p size.bytes n) :
    accessLegal p size n = false :=
  Bool.eq_false_iff.2 fun hl => accessLegal_iff.1 hl h

theorem exec_busError (h : BusErrorAt s.cfg size.bytes a.toNat) (d : Word) :
    exec (readInstr size a) s = .next { s with bus := .readError } ∧
      exec (writeInstr size a d) s = .next { s with bus := .writeError } := by
  have hl := accessLegal_of_busErrorAt h
  rw [exec_readInstr, exec_writeInstr, State.hostRead, State.hostWrite, if_pos hl, if_pos hl]
  exact ⟨rfl, rfl⟩

end busError

/-- A tuple with SZ = 3 is rejected, whatever its other fields (R95). -/
theorem decodeAccess_of_sizeField {t : BitVec 51} (h : sizeField t = 3) :
    decodeAccess t = .error .illegalSize := by
  rw [← accessTuple_of_fields t, h]
  exact decodeAccess_illegalSize _ _ _

theorem State.busAccess_illegalSize {t : BitVec 51} (h : sizeField t = 3) (s : State) :
    s.busAccess t =
      .next { s with bus := if writeField t then .writeError else .readError } := by
  rw [State.busAccess, decodeAccess_of_sizeField h]
  rfl

theorem State.eventHeld_illegalSize {e : HostEvent} {t : BitVec 51} (he : Presents e t)
    (h : sizeField t = 3) (s : State) : s.eventHeld e = false := by
  have hdec := decodeAccess_of_sizeField h
  obtain rfl | rfl := he <;> simp [State.eventHeld, HostEvent.tuple, hdec]

/-- Settles O18: the check for a bus error comes before the hold (R67), and a tuple with SZ = 3 is presented as
any access is. -/
theorem busErrorsChangeNothing : Obligations.BusErrorsChangeNothing := by
  refine ⟨fun s a d => ⟨fun h => exec_busError (size := .one) h d, fun h => exec_busError (size := .two) h d,
    fun h => exec_busError (size := .four) h d⟩, ?_, rfl, rfl, rfl, rfl, rfl⟩
  intro s e t rest hr hpres hh hsize
  have hheld := s.eventHeld_illegalSize hpres hsize
  refine ⟨hheld, fun hp => ?_, fun w n hp hd => ?_⟩
  · rw [step_host_idle hr hp hh, State.hostStep_presents hpres, State.busAccess_illegalSize hsize]
  · rw [step_host_busy hr hp hh hheld hd, State.hostStep_presents hpres, State.busAccess_illegalSize hsize]

/-! ### The soft reset and a pending command (R194, R218) -/

/-- The tuple of a write of `d` to CTRL; with bit 31 of `d` set, it is a soft reset. -/
def ctrlTuple (d : Word) : BitVec 51 := accessTuple true 2 RegName.ctrl.offset d

theorem decodeAccess_ctrlTuple (d : Word) : decodeAccess (ctrlTuple d) = .ok (.wr32 RegName.ctrl.offset d) :=
  decodeAccess_wr32 _ d

/-- A write to CTRL is never held (R73). -/
theorem State.eventHeld_ctrlTuple {e : HostEvent} {d : Word} (he : Presents e (ctrlTuple d)) (s : State) :
    s.eventHeld e = false := by
  have hexempt : s.holds true .four RegName.ctrl.offset.toNat = false := by
    simp [State.holds, holdExempt, RegName.offset]
  obtain rfl | rfl := he <;>
    simp [State.eventHeld, HostEvent.tuple, decodeAccess_ctrlTuple, State.holdsInstr, hexempt]

/-- The soft reset as a bus access, busy or not. -/
theorem State.busAccess_softReset {d : Word} (hd : d.getLsbD 31 = true) (s : State) :
    s.busAccess (ctrlTuple d) =
      .next { s with regs := Regs.reset, pend := none, bus := .writeDone } := by
  rw [State.busAccess_of_decode (decodeAccess_ctrlTuple d), execWr32_ctrl, State.writeNamed, if_pos hd]
  rfl

section race

variable {s : State} {e : HostEvent} {rest : List HostEvent} {w d : Word} {n : Nat}

/-- With no latency left, the pending command is performed, whatever the host presents. -/
theorem step_latency_out {i : Instr} (hr : s.rstN = true) (hp : s.pend = some w)
    (hdec : decodeCommand w = .ok i) (hd : s.delay = 0) :
    step s = exec i { s with bus := engineBus s } :=
  stepPerformsPendingCommand s w i hr hp hdec (.inr (.inl hd))

theorem engineBus_of_head (hh : s.host = e :: rest) :
    engineBus s = if s.eventHeld e then .held else s.bus := by
  rw [engineBus, headHeld, hh]

/-- With latency left, a soft reset goes first and cancels the pending command. -/
theorem step_softReset (hr : s.rstN = true) (hp : s.pend = some w) (he : Presents e (ctrlTuple d))
    (hh : s.host = e :: rest) (hreset : d.getLsbD 31 = true) (hd : s.delay = n + 1) :
    step s = .next
      { s with regs := Regs.reset, pend := none, bus := .writeDone, host := rest, delay := n } := by
  rw [step_host_busy hr hp hh (s.eventHeld_ctrlTuple he) hd, State.hostStep_presents he,
    State.busAccess_softReset hreset]

/-- With latency left, another master's soft reset goes ahead of a held access, which stays presented. -/
theorem step_softReset_overtaking (hr : s.rstN = true) (hp : s.pend = some w)
    (he : s.eventHeld e = true) (hh : s.host = e :: .other (ctrlTuple d) :: rest)
    (hreset : d.getLsbD 31 = true) (hd : s.delay = n + 1) :
    step s = .next
      { s with regs := Regs.reset, pend := none, bus := .writeDone, host := e :: rest, delay := n } := by
  rw [step_overtaking hr hp hh he (s.eventHeld_ctrlTuple (.inr rfl)) hd, State.busAccess_softReset hreset]

/-- An access presented to an idle block is performed at once. -/
theorem step_access_idle {t : BitVec 51} {j : Instr} (hr : s.rstN = true) (hp : s.pend = none)
    (hh : s.host = e :: rest) (he : Presents e t) (hdec : decodeAccess t = .ok j) :
    step s = exec j { s with host := rest } :=
  (stepPerformsHostAccess.1 s e t rest j hr he hh hdec).1 hp

end race

/-- Settles O8: the latency decides which of the two goes first, and after the reset nothing holds an access. -/
theorem softResetRacesPendingCommand : Obligations.SoftResetRacesPendingCommand := by
  refine ⟨fun s e w d rest i hr hp hdec hpres hh hreset => ⟨fun hd => ?_, fun n hd => ?_⟩,
    fun s e t w d rest i j hr hp hdec hreset hpres hacc hheld hh => ⟨fun hd => ?_, fun n hd => ?_⟩⟩
  · have hfree : s.eventHeld e = false := s.eventHeld_ctrlTuple (d := d) hpres
    rw [step_latency_out hr hp hdec hd, engineBus_of_head hh, hfree]
    rfl
  · exact step_softReset (d := d) hr hp hpres hh hreset hd
  · rw [step_latency_out hr hp hdec hd, engineBus_of_head hh, if_pos hheld]
  · refine ⟨_, rfl, step_softReset_overtaking (d := d) hr hp hheld hh hreset hd, ?_⟩
    exact step_access_idle hr rfl rfl hpres hacc

end Sys2Proof.Machine
end

section
/-! PROOF. Hardware reset and soft reset: which level of `rst_n` puts the block into its reset state, and what the
host reads from a block in that state. -/

namespace Sys2Proof.Machine

open Sys2Proof.Safety

/-! ### The levels of `rst_n` (R240, R241) -/

/-- An offset that nothing has written holds its INIT_BUF byte (R241). -/
@[simp] theorem Memory.read_nil (a : Nat) : Memory.read [] a = Config.initBuf a := rfl

theorem State.setRstN_fall (s : State) :
    s.setRstN false =
      { State.reset with cfg := s.cfg, host := s.host, issued := s.issued, rstN := false } := rfl

/-- The rise of `rst_n` leaves the reset state; a level 1 that was 1 already would change nothing. -/
theorem State.setRstN_rise {s : State} (hr : s.rstN = false) :
    s.setRstN true = { State.reset with cfg := s.cfg, host := s.host, issued := s.issued } := by
  simp [State.setRstN, hr, State.hardwareReset, State.reset]

/-! ### The step in reset -/

section inReset

variable {s : State} {e : HostEvent} {rest : List HostEvent}

theorem step_inReset (hr : s.rstN = false) : step s = s.stepInReset := by
  simp [step, State.agentStep, hr]

/-- With nothing presented, the block in reset does nothing; the engine makes no step either (R240). -/
theorem step_inReset_idle (hr : s.rstN = false) (hh : s.host = []) : step s = .next s := by
  rw [step_inReset hr, State.stepInReset, hh]

theorem step_inReset_level {l : Bool} (hr : s.rstN = false) (hh : s.host = .rstN l :: rest) :
    step s = .next ({ s with host := rest }.setRstN l) := by
  rw [step_inReset hr, State.stepInReset, hh]

/-- An access in reset has no defined response (R240). -/
theorem step_inReset_access (hr : s.rstN = false) (hh : s.host = e :: rest) (he : ∀ l, e ≠ .rstN l) :
    step s = .refused .accessInReset := by
  rw [step_inReset hr, State.stepInReset, hh]
  cases e with
  | rstN l => exact absurd rfl (he l)
  | access | other | wait => rfl

/-- Out of reset, a level of `rst_n` is taken at once by an idle block, and by a busy one while latency is left: no
access is on the bus, so nothing holds it. -/
theorem step_level {l : Bool} (hr : s.rstN = true) (hturn : s.pend = none ∨ s.delay ≠ 0)
    (hh : s.host = .rstN l :: rest) :
    ∃ n, step s = .next ({ s with host := rest, delay := n }.setRstN l) := by
  by_cases hp : s.pend = none
  · exact ⟨s.delay, step_host_idle hr hp hh⟩
  · obtain ⟨w, hw⟩ := Option.ne_none_iff_exists'.1 hp
    obtain ⟨n, hd⟩ := Nat.exists_eq_succ_of_ne_zero (hturn.resolve_left hp)
    exact ⟨n, step_host_busy hr hw hh rfl hd⟩

end inReset

/-! ### What the host reads after a reset (R242) -/

section registers

variable {s : State} (hp : s.pend = none) (hregs : s.regs = Regs.reset)
include hregs

theorem State.irq_of_reset : s.irq = false := by
  rw [State.irq, hregs]
  rfl

include hp

theorem State.statusWord_of_reset : s.statusWord = 0 := by
  rw [State.statusWord, State.irq_of_reset hregs, State.busy, hp, hregs]
  rfl

/-- Every register but ID reads 0. -/
theorem State.regValue_of_reset {r : RegName} (hr : r ≠ .id) : s.regValue r = 0 := by
  cases r
  case id => exact absurd rfl hr
  case status => exact State.statusWord_of_reset hp hregs
  case ctrl =>
    rw [State.regValue, State.ctrlWord, hregs]
    rfl
  case cmd => rfl
  all_goals
    rw [State.regValue, hregs]
    rfl

/-- Every offset of the register window but ID's reads 0; a reserved one always does. -/
theorem State.readReg_of_reset (a : Nat) : s.readReg a = if a = 0 then 0x55544301#32 else 0 := by
  by_cases ha : a = 0
  · rw [if_pos ha, ha]
    rfl
  · rw [if_neg ha, State.readReg]
    cases hreg : regAt a with
    | none => rfl
    | some r =>
      have hr : r ≠ .id := fun h => ha (by rw [regAt_eq_some hreg, h]; rfl)
      exact State.regValue_of_reset hp hregs hr

end registers

/-! ### The statements -/

/-- Settles O25: the soft reset is O15's write, and after either reset each offset reads `readReg_of_reset`. -/
theorem resetValues : Obligations.ResetValues := by
  refine ⟨⟨rfl, Memory.read_nil⟩, fun s => ?_,
    fun s hp hregs => ⟨State.irq_of_reset hregs, fun a hreg hal => ?_⟩⟩
  · obtain ⟨t, he, rfl, -⟩ := (ctrlWriteEffect s 0x80000000).1 (by decide)
    exact ⟨_, he, rfl, rfl, rfl⟩
  · rw [execRd32_register hreg hal (State.holds_idle hp _ _ _), State.readReg_of_reset hp hregs]

/-- Settles O12: the step in reset by what is presented, and the fall of `rst_n`, which keeps nothing of the latency. -/
theorem hardwareResetState : Obligations.HardwareResetState := by
  refine fun s rest => ⟨step_inReset_idle, fun e hr hh he => step_inReset_access hr hh he, fun hr hh => ?_,
    fun hr hturn hh => ?_, Memory.read_nil⟩
  · exact (step_inReset_level hr hh).trans (congrArg _ (State.setRstN_rise (s := { s with host := rest }) hr))
  · obtain ⟨n, hstep⟩ := step_level hr hturn hh
    exact hstep.trans (congrArg _ (State.setRstN_fall { s with host := rest, delay := n }))

end Sys2Proof.Machine
end
